-- ==== Sys2Proof/Word.lean ====
section
/-! DEFINITION. The word types of the block: a command word, an output element or length entry, a code entry (R8). -/

namespace Sys2Proof

/-- A 32-bit command word (R8, R70); `ERRCMD`, `RDATA` and `STATUS` have the same width. -/
abbrev Word := BitVec 32

/-- An 8-bit value: a length entry or one element of the output stream (R8). -/
abbrev Byte := BitVec 8

/-- A 15-bit code entry (R8, R24). -/
abbrev Code := BitVec 15

end Sys2Proof
end

