-- ==== Sys2Proof/Syntax.lean ====
section
/-! DEFINITION. The commands of the block: one constructor per row of spec/opcode_table.json (R72, R78). -/

namespace Sys2Proof

/-- A table selector of `RD_LEN` and `RD_CODE` (R71): `LL` = 0, `D` = 1, `CL` = 2. -/
inductive Table where
  | ll
  | d
  | cl
deriving DecidableEq, Repr

/-- `SIZE(t)` of R71: the number of entries of the register files a selector names. -/
def Table.size : Table → Nat
  | .ll => 286
  | .d => 30
  | .cl => 19

/-- The selector operand of `BUILD` (R71): one table, or `ALL` = 3. -/
inductive BuildSel where
  | one (t : Table)
  | all
deriving DecidableEq, Repr

/-- The commands. `A` operands are 16-bit and `B` operands 8-bit fields (R70); a one-bit operand is a `Bool`. -/
inductive Instr where
  | nop
  | wrLlen (i : BitVec 16) (v : Byte)
  | wrDlen (i : BitVec 16) (v : Byte)
  | wrClen (i : BitVec 16) (v : Byte)
  | setNlit (n : BitVec 16)
  | setNdist (n : BitVec 16)
  | build (sel : BuildSel)
  | rdLen (t : Table) (i : BitVec 16)
  | rdCode (t : Table) (i : BitVec 16)
  | rdStatus
  | rdErrcmd
  | blockBegin (f : Bool)
  | emitLl (sym : BitVec 16)
  | emitDist (sym : BitVec 16)
  | blockEnd
  | pushBit (b : Bool)
  | pushBits (v : BitVec 16) (n : Byte)
  | pushByte (v : Byte)
  | flush
  | softReset
deriving DecidableEq, Repr

end Sys2Proof
end

