-- ==== Sys2Proof/WellFormed.lean ====
section
/-! DEFINITION. The field bounds of R73 that a command term can break: table indices and the width of `PUSH_BITS`.
The other rows of R73 (fields that must be 0, selector and one-bit operands) are met by the form of `Instr` itself. -/

namespace Sys2Proof

/-- R73 on terms: "a field … below a bound, is reserved at every other value" (R75). -/
def Instr.wellFormed : Instr → Bool
  | .wrLlen i _ => i.toNat < Table.ll.size
  | .wrDlen i _ => i.toNat < Table.d.size
  | .wrClen i _ => i.toNat < Table.cl.size
  | .rdLen t i => i.toNat < t.size
  | .rdCode t i => i.toNat < t.size
  | .pushBits v n => n.toNat ≤ 16 && v.toNat < 2 ^ n.toNat
  | .nop | .setNlit _ | .setNdist _ | .build _ | .rdStatus | .rdErrcmd | .blockBegin _ | .emitLl _ | .emitDist _
  | .blockEnd | .pushBit _ | .pushByte _ | .flush | .softReset => true

end Sys2Proof
end

