-- ==== Sys2Proof/Decode.lean ====
section
/-! DEFINITION. The decoder of R77, total on every 32-bit word and rejecting by name, and the encoder, both from the
tables of R70 to R73. -/

namespace Sys2Proof

/-- Why a word is `Illegal` (R77): its opcode is reserved (R74), or its fields break its row of R73 (R75). -/
inductive Illegal where
  | reservedOpcode (op : Byte)
  | reservedField (op : Byte)
deriving DecidableEq, Repr

/-- `OP <- w[31:24]` (R71). -/
def opField (w : Word) : Byte := w.extractLsb' 24 8
/-- `A <- w[23:8]` (R71). -/
def aField (w : Word) : BitVec 16 := w.extractLsb' 8 16
/-- `B <- w[7:0]` (R71). -/
def bField (w : Word) : Byte := w.extractLsb' 0 8

/-- The word of the three fields, most significant first (R70). -/
def packWord (op : Byte) (a : BitVec 16) (b : Byte) : Word := op ++ a ++ b

/-- Table selectors 0, 1, 2 (R71). -/
def tableOfSel (b : Byte) : Option Table :=
  if b = 0 then some .ll else if b = 1 then some .d else if b = 2 then some .cl else none

/-- `sel(t)` (R78). -/
def selOfTable : Table → Byte
  | .ll => 0
  | .d => 1
  | .cl => 2

/-- The selector of `BUILD`: a table, or 3 for `ALL` (R71). -/
def buildSelOf (b : Byte) : Option BuildSel :=
  if b = 3 then some .all else (tableOfSel b).map .one

/-- The `B` field of a `BUILD` (R71). -/
def selOfBuild : BuildSel → Byte
  | .one t => selOfTable t
  | .all => 3

/-- A one-bit operand: the field must be 0 or 1 (R73, rows BLOCK_BEGIN and PUSH_BIT). -/
def bitOf (b : Byte) : Option Bool :=
  if b = 0 then some false else if b = 1 then some true else none

/-- The field of a one-bit operand. -/
def fieldOfBit (b : Bool) : Byte := if b then 1 else 0

/-- `c` when the field is one that R73 wants to be 0, and is. -/
def whenZero {w : Nat} (field : BitVec w) (c : Instr) : Option Instr := if field = 0 then some c else none

/-- The row of the opcode map (R72) applied to the operand fields: `none` for a reserved opcode, `some none` where a
zero, selector or one-bit field of R73 is broken. -/
def rowOf (op : Byte) (a : BitVec 16) (b : Byte) : Option (Option Instr) :=
  match op.toNat with
  | 0x00 => some ((whenZero a .nop).bind (whenZero b))
  | 0x01 => some (some (.wrLlen a b))
  | 0x02 => some (some (.wrDlen a b))
  | 0x03 => some (some (.wrClen a b))
  | 0x04 => some (whenZero b (.setNlit a))
  | 0x05 => some (whenZero b (.setNdist a))
  | 0x06 => some ((buildSelOf b).bind fun sel => whenZero a (.build sel))
  | 0x07 => some ((tableOfSel b).map fun t => .rdLen t a)
  | 0x08 => some ((tableOfSel b).map fun t => .rdCode t a)
  | 0x09 => some ((whenZero a .rdStatus).bind (whenZero b))
  | 0x0A => some ((whenZero a .rdErrcmd).bind (whenZero b))
  | 0x10 => some ((bitOf b).bind fun f => whenZero a (.blockBegin f))
  | 0x11 => some (whenZero b (.emitLl a))
  | 0x12 => some (whenZero b (.emitDist a))
  | 0x13 => some ((whenZero a .blockEnd).bind (whenZero b))
  | 0x20 => some ((bitOf b).bind fun v => whenZero a (.pushBit v))
  | 0x21 => some (some (.pushBits a b))
  | 0x22 => some (whenZero a (.pushByte b))
  | 0x23 => some ((whenZero a .flush).bind (whenZero b))
  | 0x30 => some ((whenZero a .softReset).bind (whenZero b))
  | _ => none

/-- `Decode(w)` of R77, on every 32-bit word. -/
def decode (w : Word) : Except Illegal Instr :=
  match rowOf (opField w) (aField w) (bField w) with
  | none => .error (.reservedOpcode (opField w))
  | some none => .error (.reservedField (opField w))
  | some (some i) => if i.wellFormed then .ok i else .error (.reservedField (opField w))

/-- The opcode of a command (R72). -/
def opcode : Instr → Byte
  | .nop => 0x00
  | .wrLlen _ _ => 0x01
  | .wrDlen _ _ => 0x02
  | .wrClen _ _ => 0x03
  | .setNlit _ => 0x04
  | .setNdist _ => 0x05
  | .build _ => 0x06
  | .rdLen _ _ => 0x07
  | .rdCode _ _ => 0x08
  | .rdStatus => 0x09
  | .rdErrcmd => 0x0A
  | .blockBegin _ => 0x10
  | .emitLl _ => 0x11
  | .emitDist _ => 0x12
  | .blockEnd => 0x13
  | .pushBit _ => 0x20
  | .pushBits _ _ => 0x21
  | .pushByte _ => 0x22
  | .flush => 0x23
  | .softReset => 0x30

/-- The `A` field of a command (R78). -/
def operandA : Instr → BitVec 16
  | .wrLlen i _ | .wrDlen i _ | .wrClen i _ | .rdLen _ i | .rdCode _ i => i
  | .setNlit n | .setNdist n => n
  | .emitLl s | .emitDist s => s
  | .pushBits v _ => v
  | .nop | .build _ | .rdStatus | .rdErrcmd | .blockBegin _ | .blockEnd | .pushBit _ | .pushByte _ | .flush
  | .softReset => 0

/-- The `B` field of a command (R78). -/
def operandB : Instr → Byte
  | .wrLlen _ v | .wrDlen _ v | .wrClen _ v => v
  | .build sel => selOfBuild sel
  | .rdLen t _ | .rdCode t _ => selOfTable t
  | .blockBegin f => fieldOfBit f
  | .pushBit b => fieldOfBit b
  | .pushBits _ n => n
  | .pushByte v => v
  | .nop | .setNlit _ | .setNdist _ | .rdStatus | .rdErrcmd | .emitLl _ | .emitDist _ | .blockEnd | .flush
  | .softReset => 0

/-- The command word of a command: the right column of R78. -/
def encode (i : Instr) : Word := packWord (opcode i) (operandA i) (operandB i)

/-- The instruction the decoder reads from a word numbered as spec/opcode_table.json numbers it. Every command is one
32-bit word, so a row of more bits has none (log 15). -/
def decodeTableWord (nbits w : Nat) : Option Instr :=
  if nbits ≤ 32 then (decode (BitVec.ofNat 32 (w % 2 ^ nbits))).toOption else none

end Sys2Proof
end

