-- ==== Sys2Proof/Config.lean ====
section
/-! DEFINITION. The model parameter of R6. The fixed constants of R7 stand in Machine/Constants.lean. -/

namespace Sys2Proof

/-- The block's one model parameter, "which a model takes as an argument" (R6). `State` carries it, so every statement
about a state holds for both of its values; no command writes it (log 1). -/
structure Config where
  /-- `KRAFT_CHECK`: whether the builder rejects a length table that is not a complete code (R6, R106). -/
  kraftCheck : Bool
deriving DecidableEq, Repr

/-- R6: "decided default `true`". -/
def Config.default : Config := { kraftCheck := true }

end Sys2Proof
end

