-- ==== Sys2Proof/Machine/State.lean ====
section
/-! DEFINITION. The architectural state (R20 to R36), the host's pending events, the ways a step can stop, and reset. -/

namespace Sys2Proof.Machine

/-- `PHASE` (R29): 0 `IDLE`, 1 `IN_BLOCK`, 2 `DONE`, 3 `FAULT`. -/
inductive Phase where
  | idle
  | inBlock
  | done
  | fault
deriving DecidableEq, Repr

/-- `ERR` (R33, R240): 0 none, 1 to 6 the error codes; codes 7 to 15 are "never produced" (log 8). -/
inductive ErrCode where
  | none
  | invalidLengthTable
  | symbolNotEncodable
  | incompleteCodeTable
  | lengthTableTooShort
  | sequenceError
  | illegalCommand
deriving DecidableEq, Repr

/-- `CV` (R31): `CV[0]` for the literal/length, `CV[1]` for the distance, `CV[2]` for the code-length-alphabet table. -/
structure CodesValid where
  ll : Bool
  d  : Bool
  cl : Bool
deriving DecidableEq, Repr

/-- The bit sink: the partial byte `ACC`, `NBITS` (R32) and the delivered bytes `OUT`, oldest first (R36). -/
structure Sink where
  acc   : BitVec 8
  nbits : BitVec 3
  out   : List Byte
deriving DecidableEq, Repr

/-- What the host does next: present a command word (R5, R70) or assert the reset input (R260). -/
inductive HostEvent where
  | command (w : Word)
  | reset
deriving DecidableEq, Repr

/-- The state tuple of R20, with the two fields of the model's own: `host`, the events the host has yet to make, next
first (log 2), and `cfg`, the model parameter of R6 (log 1). -/
structure State where
  /-- `LL_LEN[0..285]` (R21) -/
  llLen  : Vector Byte 286
  /-- `D_LEN[0..29]` (R22) -/
  dLen   : Vector Byte 30
  /-- `CL_LEN[0..18]` (R23) -/
  clLen  : Vector Byte 19
  /-- `LL_CODE[0..285]` (R24) -/
  llCode : Vector Code 286
  /-- `D_CODE[0..29]` (R25) -/
  dCode  : Vector Code 30
  /-- `CL_CODE[0..18]` (R26) -/
  clCode : Vector Code 19
  /-- `NLIT` (R27) -/
  nlit   : BitVec 9
  /-- `NDIST` (R28) -/
  ndist  : BitVec 5
  /-- `PHASE` (R29) -/
  phase  : Phase
  /-- `FINAL` (R30) -/
  finalFlag : Bool
  /-- `CV` (R31) -/
  cv     : CodesValid
  /-- `ACC`, `NBITS` (R32) and `OUT` (R36) -/
  sink   : Sink
  /-- `ERR` (R33) -/
  err    : ErrCode
  /-- `ERRCMD` (R34) -/
  errcmd : Word
  /-- `RDATA` (R35) -/
  rdata  : Word
  /-- model only: what the host has yet to do (log 2) -/
  host   : List HostEvent
  /-- model only: the parameter `KRAFT_CHECK` (log 1) -/
  cfg    : Config
deriving DecidableEq, Repr

/-- No command stops the machine: an error is a next state in phase `FAULT` (R241, R250), so there is no fault (log 11). -/
inductive Fault where
deriving DecidableEq, Repr

/-- No meaning refuses; the one constructor is for an arm of `exec` that has no meaning yet. Safe: such a step has no
next state to reason about. -/
inductive Refusal where
  /-- raised by an arm of `exec` whose instruction is not modelled yet (there is none) -/
  | notModelled (mnemonic : String)
deriving DecidableEq, Repr

/-- The sink at reset: an empty partial byte and a new, empty stream (R32, R36, R261). -/
def Sink.reset : Sink := { acc := 0, nbits := 0, out := [] }

/-- The state right after reset (R261). The block then "waits for the host's first command" (R260): `host` is empty.
`cfg` is R6's decided default. -/
def State.reset : State where
  llLen := Vector.replicate 286 0
  dLen := Vector.replicate 30 0
  clLen := Vector.replicate 19 0
  llCode := Vector.replicate 286 0
  dCode := Vector.replicate 30 0
  clCode := Vector.replicate 19 0
  nlit := 0
  ndist := 0
  phase := .idle
  finalFlag := false
  cv := { ll := false, d := false, cl := false }
  sink := Sink.reset
  err := .none
  errcmd := 0
  rdata := 0
  host := []
  cfg := Config.default

end Sys2Proof.Machine
end

