-- ==== Sys2Proof/Machine/Constants.lean ====
section
/-! DEFINITION. The hard-wired constants of R7 (R39: no command reads or writes them). -/

namespace Sys2Proof.Machine

/-- `EOB` = 256, the end-of-block symbol (R7). -/
def eob : Nat := 256
/-- `NLIT_MIN` = 257 (R7). -/
def nlitMin : Nat := 257
/-- The largest legal `NLIT`, `LL_SIZE` = 286 (R7, R27). -/
def nlitMax : Nat := 286
/-- The largest legal `NDIST`, `D_SIZE` = 30 (R7, R28). -/
def ndistMax : Nat := 30
/-- `NCL` = 19, the code-length-alphabet lengths sent per block (R7). -/
def ncl : Nat := 19
/-- `BTYPE_DYN` = 2 (R7). -/
def btypeDyn : Nat := 2

/-- `PERM[0..18]` (R7, R141). -/
def perm : List Nat := [16, 17, 18, 0, 8, 7, 9, 6, 10, 5, 11, 4, 12, 3, 13, 2, 14, 1, 15]

/-- `MAXLEN` = 15 for the literal/length and distance tables, `CL_MAXLEN` = 7 for the code-length alphabet (R7, R105). -/
def maxLen : Table → Nat
  | .ll => 15
  | .d => 15
  | .cl => 7

end Sys2Proof.Machine
end

