-- ==== Sys2Proof/Machine/Operands.lean ====
section
/-! DEFINITION. How commands reach the register files: indexed reads and writes, and the files, count and valid flag a
table selector names (R42, R50, R71). Every access of a register file goes through these. -/

namespace Sys2Proof.Machine

/-- Entry `i` of a register file. Decode keeps a command's index in range (R73); past the end this reads 0 (log 7). -/
def regAt {w n : Nat} (file : Vector (BitVec w) n) (i : Nat) : BitVec w := (file[i]?).getD 0

/-- `NAME[i] <- v` (R10). Past the end nothing is written (log 7). -/
def regSet {w n : Nat} (file : Vector (BitVec w) n) (i : Nat) (v : BitVec w) : Vector (BitVec w) n :=
  file.setIfInBounds i v

/-- `LEN(t)` (R112). -/
def State.len (s : State) : (t : Table) → Vector Byte t.size
  | .ll => s.llLen
  | .d => s.dLen
  | .cl => s.clLen

/-- `CODE(t)` (R113). -/
def State.code (s : State) : (t : Table) → Vector Code t.size
  | .ll => s.llCode
  | .d => s.dCode
  | .cl => s.clCode

/-- The number of entries that belong to a table (R21, R22, R23): `NLIT`, `NDIST`, and always 19. -/
def State.count (s : State) : Table → Nat
  | .ll => s.nlit.toNat
  | .d => s.ndist.toNat
  | .cl => 19

/-- `CV[t]` (R31). -/
def CodesValid.get (cv : CodesValid) : Table → Bool
  | .ll => cv.ll
  | .d => cv.d
  | .cl => cv.cl

/-- `CV[t] <- b` (R31). -/
def CodesValid.put (cv : CodesValid) (b : Bool) : Table → CodesValid
  | .ll => { cv with ll := b }
  | .d => { cv with d := b }
  | .cl => { cv with cl := b }

/-- `LEN(t) <- file; CV[t] <- 0`: a length write makes the built codes stale (R31). -/
def State.putLen (s : State) : (t : Table) → Vector Byte t.size → State
  | .ll, file => { s with llLen := file, cv := s.cv.put false .ll }
  | .d, file => { s with dLen := file, cv := s.cv.put false .d }
  | .cl, file => { s with clLen := file, cv := s.cv.put false .cl }

/-- `CODE(t) <- file; CV[t] <- 1`: the commit of a build (R111). -/
def State.putCode (s : State) : (t : Table) → Vector Code t.size → State
  | .ll, file => { s with llCode := file, cv := s.cv.put true .ll }
  | .d, file => { s with dCode := file, cv := s.cv.put true .d }
  | .cl, file => { s with clCode := file, cv := s.cv.put true .cl }

end Sys2Proof.Machine
end

