-- ==== Sys2Proof/Machine/Flags.lean ====
section
/-! DEFINITION. The encodings of the status fields, the status word and the error output (R29, R31, R37, R240, R252). -/

namespace Sys2Proof.Machine

/-- The encoding of `PHASE` (R29). -/
def Phase.bits : Phase → BitVec 2
  | .idle => 0
  | .inBlock => 1
  | .done => 2
  | .fault => 3

/-- `code(E)` (R240). -/
def ErrCode.bits : ErrCode → BitVec 4
  | .none => 0
  | .invalidLengthTable => 1
  | .symbolNotEncodable => 2
  | .incompleteCodeTable => 3
  | .lengthTableTooShort => 4
  | .sequenceError => 5
  | .illegalCommand => 6

/-- `CV` as its three bits, `CV[0]` the least significant (R31). -/
def CodesValid.bits (cv : CodesValid) : BitVec 3 :=
  BitVec.ofBool cv.cl ++ BitVec.ofBool cv.d ++ BitVec.ofBool cv.ll

/-- `STATUS` (R37): `ACC << 24 | ERR << 16 | NBITS << 8 | CV << 3 | FINAL << 2 | PHASE`. -/
def State.status (s : State) : Word :=
  s.sink.acc.setWidth 32 <<< 24 ||| s.err.bits.setWidth 32 <<< 16 ||| s.sink.nbits.setWidth 32 <<< 8
    ||| s.cv.bits.setWidth 32 <<< 3 ||| (BitVec.ofBool s.finalFlag).setWidth 32 <<< 2 ||| s.phase.bits.setWidth 32

/-- The level output `ERR_OUT = (PHASE = FAULT)` (R252). -/
def State.errOut (s : State) : Bool := s.phase = .fault

end Sys2Proof.Machine
end

