-- ==== Sys2Proof/Machine/Ops.lean ====
section
/-! DEFINITION. The shared operations: the bit sink's primitives (R52 to R56), reset (R260), the error response (R241),
and the order of checks every command goes through (R249). -/

namespace Sys2Proof.Machine

/-- `PushBit(b)` (R52). -/
def Sink.pushBit (k : Sink) (b : Bool) : Sink :=
  let acc := k.acc ||| (BitVec.ofBool b).setWidth 8 <<< k.nbits.toNat
  if k.nbits.toNat + 1 = 8 then { acc := 0, nbits := 0, out := k.out ++ [acc] }
  else { k with acc := acc, nbits := k.nbits + 1 }

/-- `PushBits(v, n)` (R53): `v[0]` first. -/
def Sink.pushBits (k : Sink) (v n : Nat) : Sink :=
  (List.range n).foldl (fun k j => k.pushBit (v.testBit j)) k

/-- `PushCode(c, L)` (R54): `c[L-1]` first. -/
def Sink.pushCode (k : Sink) (c : Code) (L : Nat) : Sink :=
  (List.range L).reverse.foldl (fun k j => k.pushBit (c.getLsbD j)) k

/-- `FlushBits()` (R55). -/
def Sink.flushBits (k : Sink) : Sink :=
  if k.nbits ≠ 0 then { acc := 0, nbits := 0, out := k.out ++ [k.acc] } else k

/-- `AppendByte(v)` (R56), called only at a byte boundary. -/
def Sink.appendByte (k : Sink) (v : Byte) : Sink := { k with out := k.out ++ [v] }

/-- Every register to its reset value and a new output stream: `SOFT_RESET` and the reset input (R213, R260, R261). The
host's later events and the model parameter are no registers and stay (log 4). -/
def resetBlock (s : State) : State := { State.reset with host := s.host, cfg := s.cfg }

/-- The error response (R241): `ERR <- code(E); ERRCMD <- w; PHASE <- FAULT`, "and nothing else changes". -/
def raiseError (s : State) (e : ErrCode) (w : Word) : State := { s with err := e, errcmd := w, phase := .fault }

/-- The commands that run in phase `FAULT` (R250). -/
def runsInFault : Instr → Bool
  | .nop | .rdStatus | .rdErrcmd | .softReset => true
  | .wrLlen _ _ | .wrDlen _ _ | .wrClen _ _ | .setNlit _ | .setNdist _ | .build _ | .rdLen _ _ | .rdCode _ _
  | .blockBegin _ | .emitLl _ | .emitDist _ | .blockEnd | .pushBit _ | .pushBits _ _ | .pushByte _ | .flush => false

/-- The table "Commands allowed per phase" of R214. -/
def allowedIn (i : Instr) (p : Phase) : Bool :=
  match i with
  | .nop | .rdStatus | .rdErrcmd | .softReset => true
  | .rdLen _ _ | .rdCode _ _ | .pushBit _ | .pushBits _ _ => p ≠ .fault
  | .wrLlen _ _ | .wrDlen _ _ | .wrClen _ _ | .setNlit _ | .setNdist _ | .build _ | .pushByte _ | .flush =>
    p = .idle || p = .done
  | .blockBegin _ => p = .idle
  | .emitLl _ | .emitDist _ | .blockEnd => p = .inBlock

/-- What a command's own pseudocode gives: the next state, or the error it raises. A raise discards every write (R10). -/
abbrev Effect := Except ErrCode State

/-- One command through the order of checks of R249: phase `FAULT`, then `IllegalCommand`, then the phase, then the
command's own effect. An error records the command's word (R241), which is `encode i` (log 5). A term that no word decodes
to is illegal (log 6). -/
def command (i : Instr) (effect : State → Effect) (s : State) :
    Host.Outcome State Fault Refusal :=
  if s.phase = .fault ∧ runsInFault i = false then .next s
  else if i.wellFormed = false then .next (raiseError s .illegalCommand (encode i))
  else if allowedIn i s.phase = false then .next (raiseError s .sequenceError (encode i))
  else
    match effect s with
    | .ok t => .next t
    | .error e => .next (raiseError s e (encode i))

/-- A word that fails decode (R248): ignored in `FAULT` (R250), else `IllegalCommand`. -/
def illegalWord (w : Word) (s : State) : Host.Outcome State Fault Refusal :=
  if s.phase = .fault then .next s else .next (raiseError s .illegalCommand w)

end Sys2Proof.Machine
end

