-- ==== Sys2Proof/Machine/Control.lean ====
section
/-! DEFINITION. The control commands: NOP, RD_STATUS, RD_ERRCMD, SOFT_RESET. They run in every phase (R250). -/

namespace Sys2Proof.Machine

/-- `NOP` (R210). -/
def execNop (s : State) : Host.Outcome State Fault Refusal := command .nop .ok s

/-- `RD_STATUS` (R211). -/
def execRdStatus (s : State) : Host.Outcome State Fault Refusal :=
  command .rdStatus (fun s => .ok { s with rdata := s.status }) s

/-- `RD_ERRCMD` (R212). -/
def execRdErrcmd (s : State) : Host.Outcome State Fault Refusal :=
  command .rdErrcmd (fun s => .ok { s with rdata := s.errcmd }) s

/-- `SOFT_RESET` (R213). -/
def execSoftReset (s : State) : Host.Outcome State Fault Refusal :=
  command .softReset (fun s => .ok (resetBlock s)) s

end Sys2Proof.Machine
end

