-- ==== Sys2Proof/Machine/Packer.lean ====
section
/-! DEFINITION. The bitstream packer unit: PUSH_BIT, PUSH_BITS, PUSH_BYTE, FLUSH. -/

namespace Sys2Proof.Machine

/-- `PUSH_BIT b` (R180). -/
def execPushBit (b : Bool) (s : State) : Host.Outcome State Fault Refusal :=
  command (.pushBit b) (fun s => .ok { s with sink := s.sink.pushBit b }) s

/-- `PUSH_BITS v, n` (R181). -/
def execPushBits (v : BitVec 16) (n : Byte) (s : State) : Host.Outcome State Fault Refusal :=
  command (.pushBits v n) (fun s => .ok { s with sink := s.sink.pushBits v.toNat n.toNat }) s

/-- The effect of `PUSH_BYTE v` (R182). -/
def pushByteEffect (v : Byte) (s : State) : Effect :=
  if s.sink.nbits ≠ 0 then .error .sequenceError else .ok { s with sink := s.sink.appendByte v }

/-- `PUSH_BYTE v` (R182). -/
def execPushByte (v : Byte) (s : State) : Host.Outcome State Fault Refusal :=
  command (.pushByte v) (pushByteEffect v) s

/-- `FLUSH` (R183). -/
def execFlush (s : State) : Host.Outcome State Fault Refusal :=
  command .flush (fun s => .ok { s with sink := s.sink.flushBits }) s

end Sys2Proof.Machine
end

