-- ==== Sys2Proof/Machine/Codes.lean ====
section
/-! DEFINITION. The canonical code algorithm `BuildCodes(LEN, n, size, maxlen)` (R105 to R110). -/

namespace Sys2Proof.Machine

/-- `LEN[0..n-1]` as naturals, the entries that belong to the table. Past the end of the file an entry reads 0, as in
`regAt` (log 7): no legal count reaches there. -/
def usedLengths {size : Nat} (lens : Vector Byte size) (n : Nat) : List Nat :=
  ((lens.toList ++ List.replicate (n - size) 0).take n).map BitVec.toNat

/-- The Kraft sum `K` in units of `2^-15` (R106): over the used symbols, `2^(15 - LEN[s])`. -/
def kraftSum (ls : List Nat) : Nat := (ls.map fun l => if l = 0 then 0 else 2 ^ (15 - l)).sum

/-- `count[L]` (R107); `count[0]` stays 0. -/
def lengthCount (ls : List Nat) (L : Nat) : Nat := if L = 0 then 0 else ls.count L

/-- `next[L], next[L+1], …`, `k` entries, from `next[L-1]` (R108), in 16-bit working values. -/
def firstCodesFrom (ls : List Nat) (prev : BitVec 16) (L : Nat) : Nat → List (BitVec 16)
  | 0 => []
  | k + 1 =>
    let next := (prev + BitVec.ofNat 16 (lengthCount ls (L - 1))) <<< 1
    next :: firstCodesFrom ls next (L + 1) k

/-- `next[0..15]` after step 2 (R108); `next[0]` is read by no rule. -/
def firstCodes (ls : List Nat) : List (BitVec 16) := 0 :: 0 :: firstCodesFrom ls 0 2 14

/-- Step 3 (R109): the codes of the symbols in ascending order, each `next[L] mod 2^15`, then `next[L]` incremented; a
symbol of length 0 gets 0 (R110). -/
def assignCodes : List Nat → List (BitVec 16) → List Code
  | [], _ => []
  | L :: ls, next =>
    if L = 0 then 0 :: assignCodes ls next
    else (next.getD L 0).setWidth 15 :: assignCodes ls (next.modify L (· + 1))

/-- A code register file from its first entries, 0 in the rest (R110). -/
def codeFile (size : Nat) (codes : List Code) : Vector Code size :=
  ⟨((codes ++ List.replicate size 0).take size).toArray, by simp⟩

/-- `BuildCodes` (R105 to R110): the range check, the completeness check when `KRAFT_CHECK`, then the codes. -/
def buildCodes {size : Nat} (kraftCheck : Bool) (lens : Vector Byte size) (n maxlen : Nat) :
    Except ErrCode (Vector Code size) :=
  let ls := usedLengths lens n
  if ls.any (fun l => maxlen < l) then .error .invalidLengthTable
  else if kraftCheck && (kraftSum ls != 0 && kraftSum ls != 2 ^ 15) then .error .incompleteCodeTable
  else .ok (codeFile size (assignCodes ls (firstCodes ls)))

/-- `BuildCodes(args(t))` on the present registers (R111). -/
def State.buildTable (s : State) (t : Table) : Except ErrCode (Vector Code t.size) :=
  buildCodes s.cfg.kraftCheck (s.len t) (s.count t) (maxLen t)

end Sys2Proof.Machine
end

