-- ==== Sys2Proof/Machine/Builder.lean ====
section
/-! DEFINITION. The code builder unit: WR_LLEN, WR_DLEN, WR_CLEN, SET_NLIT, SET_NDIST, BUILD, RD_LEN, RD_CODE. -/

namespace Sys2Proof.Machine

/-- `LEN(t)[i] <- v; CV[t] <- 0`: the shared body of R100, R101 and R102. -/
def writeLen (t : Table) (i : BitVec 16) (v : Byte) (s : State) : Effect :=
  .ok (s.putLen t (regSet (s.len t) i.toNat v))

/-- `WR_LLEN i, v` (R100). -/
def execWrLlen (i : BitVec 16) (v : Byte) (s : State) : Host.Outcome State Fault Refusal :=
  command (.wrLlen i v) (writeLen .ll i v) s

/-- `WR_DLEN i, v` (R101). -/
def execWrDlen (i : BitVec 16) (v : Byte) (s : State) : Host.Outcome State Fault Refusal :=
  command (.wrDlen i v) (writeLen .d i v) s

/-- `WR_CLEN i, v` (R102). -/
def execWrClen (i : BitVec 16) (v : Byte) (s : State) : Host.Outcome State Fault Refusal :=
  command (.wrClen i v) (writeLen .cl i v) s

/-- The effect of `SET_NLIT n` (R103). -/
def setNlitEffect (n : BitVec 16) (s : State) : Effect :=
  if nlitMax < n.toNat then .error .invalidLengthTable
  else .ok { s with nlit := n.setWidth 9, cv := s.cv.put false .ll }

/-- `SET_NLIT n` (R103). -/
def execSetNlit (n : BitVec 16) (s : State) : Host.Outcome State Fault Refusal :=
  command (.setNlit n) (setNlitEffect n) s

/-- The effect of `SET_NDIST n` (R104). -/
def setNdistEffect (n : BitVec 16) (s : State) : Effect :=
  if ndistMax < n.toNat then .error .invalidLengthTable
  else .ok { s with ndist := n.setWidth 5, cv := s.cv.put false .d }

/-- `SET_NDIST n` (R104). -/
def execSetNdist (n : BitVec 16) (s : State) : Host.Outcome State Fault Refusal :=
  command (.setNdist n) (setNdistEffect n) s

/-- All three builds in the order LL, D, CL, then all three commits (R111 with `ALL`; R143). -/
def buildAll (s : State) : Effect := do
  let newLL ← s.buildTable .ll
  let newD ← s.buildTable .d
  let newCL ← s.buildTable .cl
  return ((s.putCode .ll newLL).putCode .d newD).putCode .cl newCL

/-- The effect of `BUILD` (R111). -/
def buildEffect (sel : BuildSel) (s : State) : Effect :=
  match sel with
  | .one t => (s.buildTable t).map (s.putCode t)
  | .all => buildAll s

/-- `BUILD sel` (R111). -/
def execBuild (sel : BuildSel) (s : State) : Host.Outcome State Fault Refusal :=
  command (.build sel) (buildEffect sel) s

/-- `RD_LEN t, i` (R112). -/
def execRdLen (t : Table) (i : BitVec 16) (s : State) : Host.Outcome State Fault Refusal :=
  command (.rdLen t i) (fun s => .ok { s with rdata := (regAt (s.len t) i.toNat).setWidth 32 }) s

/-- `RD_CODE t, i` (R113). -/
def execRdCode (t : Table) (i : BitVec 16) (s : State) : Host.Outcome State Fault Refusal :=
  command (.rdCode t i) (fun s => .ok { s with rdata := (regAt (s.code t) i.toNat).setWidth 32 }) s

end Sys2Proof.Machine
end

