-- ==== Sys2Proof/Machine/Serializer.lean ====
section
/-! DEFINITION. The block serializer unit: BLOCK_BEGIN, EMIT_LL, EMIT_DIST, BLOCK_END. -/

namespace Sys2Proof.Machine

/-- `VALS`, the transmitted code-length values (R142). -/
def State.vals (s : State) : List Nat :=
  usedLengths s.llLen s.nlit.toNat ++ (if s.ndist = 0 then [0] else usedLengths s.dLen s.ndist.toNat)

/-- `HLIT` (R144). -/
def State.hlit (s : State) : Nat := s.nlit.toNat - nlitMin

/-- `HDIST` (R144). -/
def State.hdist (s : State) : Nat := max s.ndist.toNat 1 - 1

/-- Steps 1 to 3 of the header (R143): `BFINAL`, `BTYPE`, `HLIT`, `HDIST`, `HCLEN`. -/
def State.pushCounts (s : State) (f : Bool) (k : Sink) : Sink :=
  ((((k.pushBits f.toNat 1).pushBits btypeDyn 2).pushBits s.hlit 5).pushBits s.hdist 5).pushBits (ncl - 4) 4

/-- Step 4 (R143, R145): the 19 code-length-alphabet lengths in the order `PERM`, 3 bits each. -/
def State.pushClLens (s : State) (k : Sink) : Sink :=
  perm.foldl (fun k p => k.pushBits (regAt s.clLen p).toNat 3) k

/-- Steps 5 and 6 (R143, R146): each value of `VALS` as its code-length code, from the code registers as built. -/
def State.pushVals (s : State) (k : Sink) : Sink :=
  s.vals.foldl (fun k v => k.pushCode (regAt s.clCode v) (regAt s.clLen v).toNat) k

/-- The last checks before the commit (R143): the end-of-block symbol and every value of `VALS` have a code. -/
def State.blockEncodable (s : State) : Bool :=
  regAt s.llLen eob ≠ 0 && s.vals.all fun v => regAt s.clLen v ≠ 0

/-- The effect of `BLOCK_BEGIN f` (R143). -/
def blockBeginEffect (f : Bool) (s : State) : Effect := do
  if s.nlit.toNat < nlitMin then throw .lengthTableTooShort
  let built ← buildAll s
  if !s.blockEncodable then throw .symbolNotEncodable
  return { built with
    sink := built.pushVals (built.pushClLens (built.pushCounts f s.sink))
    finalFlag := f
    phase := .inBlock }

/-- `BLOCK_BEGIN f` (R143). -/
def execBlockBegin (f : Bool) (s : State) : Host.Outcome State Fault Refusal :=
  command (.blockBegin f) (blockBeginEffect f) s

/-- The code of symbol `sym` of table `t` onto the sink, refused where the symbol has none (R147, R148). -/
def emitSymbol (t : Table) (sym : BitVec 16) (s : State) : Effect :=
  if s.count t ≤ sym.toNat ∨ regAt (s.len t) sym.toNat = 0 then .error .symbolNotEncodable
  else .ok { s with sink := s.sink.pushCode (regAt (s.code t) sym.toNat) (regAt (s.len t) sym.toNat).toNat }

/-- `EMIT_LL s` (R147). -/
def execEmitLl (sym : BitVec 16) (s : State) : Host.Outcome State Fault Refusal :=
  command (.emitLl sym) (emitSymbol .ll sym) s

/-- `EMIT_DIST s` (R148). -/
def execEmitDist (sym : BitVec 16) (s : State) : Host.Outcome State Fault Refusal :=
  command (.emitDist sym) (emitSymbol .d sym) s

/-- `BLOCK_END` (R149): no check of the length, which `BLOCK_BEGIN` made. -/
def execBlockEnd (s : State) : Host.Outcome State Fault Refusal :=
  command .blockEnd (fun s => .ok { s with
    sink := s.sink.pushCode (regAt s.llCode eob) (regAt s.llLen eob).toNat
    phase := if s.finalFlag then .done else .idle }) s

end Sys2Proof.Machine
end

