-- ==== Sys2Proof/Machine/Dispatch.lean ====
section
/-! DEFINITION. One arm per command, each one call of its meaning. -/

namespace Sys2Proof.Machine

/-- The effect of one command (R42: 40_code_builder.md to 43_control.md). -/
def exec (i : Instr) (s : State) : Host.Outcome State Fault Refusal :=
  match i with
  | .nop => Sys2Proof.Machine.execNop s
  | .wrLlen idx v => Sys2Proof.Machine.execWrLlen idx v s
  | .wrDlen idx v => Sys2Proof.Machine.execWrDlen idx v s
  | .wrClen idx v => Sys2Proof.Machine.execWrClen idx v s
  | .setNlit n => Sys2Proof.Machine.execSetNlit n s
  | .setNdist n => Sys2Proof.Machine.execSetNdist n s
  | .build sel => Sys2Proof.Machine.execBuild sel s
  | .rdLen t idx => Sys2Proof.Machine.execRdLen t idx s
  | .rdCode t idx => Sys2Proof.Machine.execRdCode t idx s
  | .rdStatus => Sys2Proof.Machine.execRdStatus s
  | .rdErrcmd => Sys2Proof.Machine.execRdErrcmd s
  | .blockBegin f => Sys2Proof.Machine.execBlockBegin f s
  | .emitLl sym => Sys2Proof.Machine.execEmitLl sym s
  | .emitDist sym => Sys2Proof.Machine.execEmitDist sym s
  | .blockEnd => Sys2Proof.Machine.execBlockEnd s
  | .pushBit b => Sys2Proof.Machine.execPushBit b s
  | .pushBits v n => Sys2Proof.Machine.execPushBits v n s
  | .pushByte v => Sys2Proof.Machine.execPushByte v s
  | .flush => Sys2Proof.Machine.execFlush s
  | .softReset => Sys2Proof.Machine.execSoftReset s

end Sys2Proof.Machine
end

