-- ==== Sys2Proof/Machine/Present.lean ====
section
/-! DEFINITION. One host event performed by the block: a command word (R5, R249) or the reset input (R260). -/

namespace Sys2Proof.Machine

/-- The block performs the presented word: decoded and executed, or the response to an illegal one (R77, R248, R249). -/
def performWord (w : Word) (s : State) : Host.Outcome State Fault Refusal :=
  match decode w with
  | .ok i => exec i s
  | .error _ => illegalWord w s

/-- The block's response to one host event. The reset input is accepted in every phase (R260). -/
def performEvent (e : HostEvent) (s : State) : Host.Outcome State Fault Refusal :=
  match e with
  | .command w => performWord w s
  | .reset => .next (resetBlock s)

/-- The next event leaves the host's list and is performed; with none the block waits, unchanged (R260, log 2). -/
def stepHost (s : State) : Host.Outcome State Fault Refusal :=
  match s.host with
  | [] => .next s
  | e :: rest => performEvent e { s with host := rest }

/-- `w`, a word of `nbits` bits, becomes the host's next command. -/
def presentNext (s : State) (nbits w : Nat) : State :=
  { s with host := .command (BitVec.ofNat 32 (w % 2 ^ nbits)) :: s.host }

end Sys2Proof.Machine
end

