-- ==== Sys2Proof/Machine/Step.lean ====
section
/-! DEFINITION. One step: the block performs the host's next event (R5). -/

namespace Sys2Proof.Machine

/-- One atomic step of the block (R5, R60). -/
def step (s : State) : Host.Outcome State Fault Refusal := stepHost s

/-- `s` with the table word `w` as the next command the host presents. -/
def State.withFetchWord (s : State) (nbits w : Nat) : State := presentNext s nbits w

end Sys2Proof.Machine
end

