-- ==== Sys2Proof/Machine/Assembly.lean ====
section
/-! DEFINITION. The assembly spelling of R78 and the pseudo-commands of R79, which are host-side spellings: "they are not
encodings; the block never sees them". The container's byte order (R57) and layout (R186 to R188) are these expansions. -/

namespace Sys2Proof.Machine

/-- `lo, lo+1, ..., hi` (R79), none when `lo > hi` (log 18). -/
def indexRange (lo hi : BitVec 16) : List (BitVec 16) :=
  (List.range' lo.toNat (hi.toNat + 1 - lo.toNat)).map (BitVec.ofNat 16)

/-- `FILL_LLEN lo..hi, v` (R79). The indices are 16-bit fields; with `lo > hi` no command (log 18). -/
def fillLlen (lo hi : BitVec 16) (v : Byte) : List Instr :=
  (indexRange lo hi).map fun i => .wrLlen i v

/-- `FILL_DLEN lo..hi, v` (R79). The indices are 16-bit fields; with `lo > hi` no command (log 18). -/
def fillDlen (lo hi : BitVec 16) (v : Byte) : List Instr :=
  (indexRange lo hi).map fun i => .wrDlen i v

/-- `FILL_CLEN lo..hi, v` (R79). The indices are 16-bit fields; with `lo > hi` no command (log 18). -/
def fillClen (lo hi : BitVec 16) (v : Byte) : List Instr :=
  (indexRange lo hi).map fun i => .wrClen i v

/-- `EMIT_BYTES b0, b1, …` (R79). -/
def emitBytes (bs : List Byte) : List Instr := bs.map fun b => .emitLl (b.setWidth 16)

/-- `PUSH_LE32 v`: four bytes, the least significant first (R57, R79). -/
def pushLe32 (v : Word) : List Instr := (List.range 4).map fun k => .pushByte (v.extractLsb' (8 * k) 8)

/-- `GZIP_HEADER flg, mtime, xfl, os` (R79, R187). -/
def gzipHeader (flg : Byte) (mtime : Word) (xfl os : Byte) : List Instr :=
  [.pushByte 0x1F, .pushByte 0x8B, .pushByte 0x08, .pushByte flg] ++ pushLe32 mtime ++ [.pushByte xfl, .pushByte os]

/-- `GZIP_TRAILER crc, isize` (R79, R188). -/
def gzipTrailer (crc isize : Word) : List Instr := .flush :: (pushLe32 crc ++ pushLe32 isize)

/-- `LOAD_PLACEHOLDER_LL` (R79). -/
def loadPlaceholderLl : List Instr := .setNlit 286 :: (fillLlen 0 225 8 ++ fillLlen 226 285 9)

/-- A digit of a numeral in base 2, 10 or 16 (R78). -/
def digitOf (base : Nat) (c : Char) : Option Nat :=
  let v := if '0' ≤ c ∧ c ≤ '9' then some (c.toNat - '0'.toNat)
    else if 'a' ≤ c ∧ c ≤ 'f' then some (c.toNat - 'a'.toNat + 10)
    else if 'A' ≤ c ∧ c ≤ 'F' then some (c.toNat - 'A'.toNat + 10)
    else none
  v.filter (· < base)

/-- The value of a non-empty string of digits. -/
def digitsValue (base : Nat) (cs : List Char) : Option Nat :=
  if cs.isEmpty then none
  else cs.foldl (fun acc c => acc.bind fun a => (digitOf base c).map (a * base + ·)) (some 0)

/-- "operands are decimal, `0x` hex or `0b` binary numerals" (R78). -/
def numeral : List Char → Option Nat
  | '0' :: 'x' :: cs => digitsValue 16 cs
  | '0' :: 'b' :: cs => digitsValue 2 cs
  | cs => digitsValue 10 cs

/-- A numeral that fits `w` bits. -/
def numeralOf (w : Nat) (cs : List Char) : Option (BitVec w) :=
  (numeral cs).bind fun v => if v < 2 ^ w then some (BitVec.ofNat w v) else none

/-- The pieces of a list of characters between separators. -/
def splitChars (sep : Char → Bool) : List Char → List (List Char)
  | [] => [[]]
  | c :: cs =>
    match splitChars sep cs with
    | [] => [[c]]
    | piece :: rest => if sep c then [] :: piece :: rest else (c :: piece) :: rest

/-- Without the blanks at both ends. -/
def trimChars (cs : List Char) : List Char :=
  ((cs.dropWhile Char.isWhitespace).reverse.dropWhile Char.isWhitespace).reverse

/-- `lo..hi` of a `FILL_*` pseudo-command (R79). A bound that does not fit the 16-bit `A` field has no word, and the line is
refused as the single `WR_*` line with that index is (log 18). -/
def rangeOf (cs : List Char) : Option (BitVec 16 × BitVec 16) :=
  match splitChars (· == '.') cs with
  | [lo, [], hi] => (numeralOf 16 (trimChars lo)).bind fun a => (numeralOf 16 (trimChars hi)).map fun b => (a, b)
  | _ => none

/-- A table's name in the assembly syntax (R78). -/
def tableNamed (cs : List Char) : Option Table :=
  if cs = ['L', 'L'] then some .ll else if cs = ['D'] then some .d else if cs = ['C', 'L'] then some .cl else none

/-- A command or pseudo-command by its name and operands (R78, R79), before the bounds of R73. -/
def assembleOperands (name : String) (ops : List (List Char)) : Option (List Instr) :=
  match name, ops with
  | "NOP", [] => some [.nop]
  | "WR_LLEN", [i, v] => do return [.wrLlen (← numeralOf 16 i) (← numeralOf 8 v)]
  | "WR_DLEN", [i, v] => do return [.wrDlen (← numeralOf 16 i) (← numeralOf 8 v)]
  | "WR_CLEN", [i, v] => do return [.wrClen (← numeralOf 16 i) (← numeralOf 8 v)]
  | "SET_NLIT", [n] => do return [.setNlit (← numeralOf 16 n)]
  | "SET_NDIST", [n] => do return [.setNdist (← numeralOf 16 n)]
  | "BUILD", [t] =>
    if t = ['A', 'L', 'L'] then some [.build .all] else (tableNamed t).map fun t => [.build (.one t)]
  | "RD_LEN", [t, i] => do return [.rdLen (← tableNamed t) (← numeralOf 16 i)]
  | "RD_CODE", [t, i] => do return [.rdCode (← tableNamed t) (← numeralOf 16 i)]
  | "RD_STATUS", [] => some [.rdStatus]
  | "RD_ERRCMD", [] => some [.rdErrcmd]
  | "BLOCK_BEGIN", [f] => do return [.blockBegin ((← numeralOf 1 f) == 1)]
  | "EMIT_LL", [s] => do return [.emitLl (← numeralOf 16 s)]
  | "EMIT_DIST", [s] => do return [.emitDist (← numeralOf 16 s)]
  | "BLOCK_END", [] => some [.blockEnd]
  | "PUSH_BIT", [b] => do return [.pushBit ((← numeralOf 1 b) == 1)]
  | "PUSH_BITS", [v, n] => do return [.pushBits (← numeralOf 16 v) (← numeralOf 8 n)]
  | "PUSH_BYTE", [v] => do return [.pushByte (← numeralOf 8 v)]
  | "FLUSH", [] => some [.flush]
  | "SOFT_RESET", [] => some [.softReset]
  | "FILL_LLEN", [r, v] => do let (lo, hi) ← rangeOf r; return fillLlen lo hi (← numeralOf 8 v)
  | "FILL_DLEN", [r, v] => do let (lo, hi) ← rangeOf r; return fillDlen lo hi (← numeralOf 8 v)
  | "FILL_CLEN", [r, v] => do let (lo, hi) ← rangeOf r; return fillClen lo hi (← numeralOf 8 v)
  | "EMIT_BYTES", bs => if bs.isEmpty then none else (bs.mapM (numeralOf 8)).map emitBytes
  | "PUSH_LE32", [v] => do return pushLe32 (← numeralOf 32 v)
  | "GZIP_HEADER", [flg, mtime, xfl, os] => do
    return gzipHeader (← numeralOf 8 flg) (← numeralOf 32 mtime) (← numeralOf 8 xfl) (← numeralOf 8 os)
  | "GZIP_TRAILER", [crc, isize] => do return gzipTrailer (← numeralOf 32 crc) (← numeralOf 32 isize)
  | "LOAD_PLACEHOLDER_LL", [] => some loadPlaceholderLl
  | _, _ => none

/-- One line of assembly: "One command per line … `;` starts a comment" (R78). A blank line is no command; a line whose
commands break R73 has no words (log 18). -/
def assembleLine (line : String) : Option (List Instr) :=
  let text := trimChars (line.toList.takeWhile (· ≠ ';'))
  if text.isEmpty then some []
  else
    let name := text.takeWhile fun c => !c.isWhitespace
    let rest := trimChars (text.drop name.length)
    let ops := if rest.isEmpty then [] else (splitChars (· == ',') rest).map trimChars
    (assembleOperands (String.ofList name) ops).filter fun is => is.all Instr.wellFormed

end Sys2Proof.Machine
end

