-- ==== Sys2Proof/Safety.lean ====
section
/-! DEFINITION. The terms the statements are written in: the stream as bits, the canonical code as the source defines it
on unbounded naturals, the fields of a word as numbers, what each command may write (R42), and the invariants. None of
it is used by the machine. -/

namespace Sys2Proof.Machine

/-! ### Words as numbers -/

/-- The fields of `w` by division (R70): `OP`, `A`, `B`. -/
def wordFields (w : Word) : Nat × Nat × Nat := (w.toNat / 2 ^ 24, w.toNat / 2 ^ 8 % 2 ^ 16, w.toNat % 2 ^ 8)

/-- Whether `OP`, `A`, `B` make a legal word: the opcodes of R72 and the bounds of R73, in numbers; every other opcode is
reserved (R74) and every other field value is illegal (R75). -/
def legalFields : Nat × Nat × Nat → Prop
  | (0x00, a, b) => a = 0 ∧ b = 0
  | (0x01, a, _) => a < 286
  | (0x02, a, _) => a < 30
  | (0x03, a, _) => a < 19
  | (0x04, _, b) => b = 0
  | (0x05, _, b) => b = 0
  | (0x06, a, b) => a = 0 ∧ b ≤ 3
  | (0x07, a, b) => (b = 0 ∧ a < 286) ∨ (b = 1 ∧ a < 30) ∨ (b = 2 ∧ a < 19)
  | (0x08, a, b) => (b = 0 ∧ a < 286) ∨ (b = 1 ∧ a < 30) ∨ (b = 2 ∧ a < 19)
  | (0x09, a, b) => a = 0 ∧ b = 0
  | (0x0A, a, b) => a = 0 ∧ b = 0
  | (0x10, a, b) => a = 0 ∧ b ≤ 1
  | (0x11, _, b) => b = 0
  | (0x12, _, b) => b = 0
  | (0x13, a, b) => a = 0 ∧ b = 0
  | (0x20, a, b) => a = 0 ∧ b ≤ 1
  | (0x21, a, b) => b ≤ 16 ∧ a < 2 ^ b
  | (0x22, a, _) => a = 0
  | (0x23, a, b) => a = 0 ∧ b = 0
  | (0x30, a, b) => a = 0 ∧ b = 0
  | _ => False

/-! ### The stream as bits -/

/-- The low `n` bits of `v`, bit 0 first: a header number on the stream (R51 a, R53). -/
def fieldBits (v n : Nat) : List Bool := (List.range n).map v.testBit

/-- The low `L` bits of `c`, bit `L-1` first: a Huffman code on the stream (R51 b, R54). -/
def codeBits (c L : Nat) : List Bool := (List.range L).reverse.map c.testBit

/-- Every bit appended since reset, earliest first (R32, R36, R51 c). -/
def Sink.bits (k : Sink) : List Bool :=
  k.out.flatMap (fun b => fieldBits b.toNat 8) ++ fieldBits k.acc.toNat k.nbits.toNat

/-- How many bits have been appended since reset. -/
def Sink.bitCount (k : Sink) : Nat := 8 * k.out.length + k.nbits.toNat

/-- The invariant of R32: `ACC[7:NBITS] = 0`. -/
abbrev Sink.wf (k : Sink) : Prop := k.acc.toNat < 2 ^ k.nbits.toNat

/-! ### The canonical code, as the source states it (R105 to R110), on naturals without a width -/

/-- Entry `j` of the length table `t`, as a number. -/
def State.lenAt (s : State) (t : Table) (j : Nat) : Nat := (regAt (s.len t) j).toNat

/-- How many of the symbols below `n` have length `L` (R107). -/
def refCount (len : Nat → Nat) (n L : Nat) : Nat := ((List.range n).filter fun j => len j = L).length

/-- `first_code[L]` (R108): 0 for `L = 1`, then `(first_code[L-1] + length_counts[L-1]) << 1`. -/
def refFirst (len : Nat → Nat) (n : Nat) : Nat → Nat
  | 0 => 0
  | 1 => 0
  | L + 2 => 2 * (refFirst len n (L + 1) + refCount len n (L + 1))

/-- The code register of symbol `j` after a build of the first `n` lengths (R109, R110): `first_code` of its length plus
the number of earlier symbols of that length, modulo `2^15`; 0 for an unused or out-of-count symbol. -/
def refCode (len : Nat → Nat) (n j : Nat) : Nat :=
  if n ≤ j ∨ len j = 0 then 0 else (refFirst len n (len j) + refCount len j (len j)) % 2 ^ 15

/-- The Kraft sum `K` (R106). -/
def refKraft (len : Nat → Nat) (n : Nat) : Nat :=
  ((List.range n).map fun j => if len j = 0 then 0 else 2 ^ (15 - len j)).sum

/-- The error a build of table `t` raises, if any (R105, then R106). -/
def State.tableError (s : State) (t : Table) : Option ErrCode :=
  if ∃ j < s.count t, maxLen t < s.lenAt t j then some .invalidLengthTable
  else if s.cfg.kraftCheck = true ∧ refKraft (s.lenAt t) (s.count t) ≠ 0 ∧ refKraft (s.lenAt t) (s.count t) ≠ 2 ^ 15
  then some .incompleteCodeTable
  else none

/-- The error a build of all three tables raises, if any: the first in the order LL, D, CL (R111, R249). -/
def State.buildError (s : State) : Option ErrCode :=
  ((s.tableError .ll).or (s.tableError .d)).or (s.tableError .cl)

/-- Every code register of table `t` in `after` is the canonical code of the lengths in `s`. -/
def State.hasCodesOf (after s : State) (t : Table) : Prop :=
  ∀ j < t.size, (regAt (after.code t) j).toNat = refCode (s.lenAt t) (s.count t) j

/-! ### The header of a block (R142 to R146) -/

/-- `VALS` (R142). -/
def State.refVals (s : State) : List Nat :=
  (List.range s.nlit.toNat).map (s.lenAt .ll) ++
    (if s.ndist.toNat = 0 then [0] else (List.range s.ndist.toNat).map (s.lenAt .d))

/-- The error `BLOCK_BEGIN` raises, if any, in the order of R143 and R249. -/
def State.beginError (s : State) : Option ErrCode :=
  if s.nlit.toNat < 257 then some .lengthTableTooShort
  else s.buildError.or
    (if s.lenAt .ll 256 = 0 then some .symbolNotEncodable
    else if ∃ v ∈ s.refVals, s.lenAt .cl v = 0 then some .symbolNotEncodable else none)

/-- The bits of the header (R140, R143, source steps 1 to 6), codes and all from the length registers of `s`. -/
def State.headerBits (s : State) (f : Bool) : List Bool :=
  [f] ++ [false, true] ++ fieldBits (s.nlit.toNat - 257) 5 ++ fieldBits (max s.ndist.toNat 1 - 1) 5 ++ fieldBits 15 4
    ++ [16, 17, 18, 0, 8, 7, 9, 6, 10, 5, 11, 4, 12, 3, 13, 2, 14, 1, 15].flatMap (fun p => fieldBits (s.lenAt .cl p) 3)
    ++ s.refVals.flatMap (fun v => codeBits (refCode (s.lenAt .cl) 19 v) (s.lenAt .cl v))

/-- The bits a command of step 7 appends in a block whose header `s` transmits: a symbol its canonical code, `PUSH_BIT` and
`PUSH_BITS` their extra bits (R140, R150); none for any other command, a symbol without a code, or a field R73 refuses. -/
def State.bodyBits (s : State) : Instr → Option (List Bool)
  | .emitLl x =>
    if x.toNat < s.nlit.toNat ∧ s.lenAt .ll x.toNat ≠ 0
    then some (codeBits (refCode (s.lenAt .ll) s.nlit.toNat x.toNat) (s.lenAt .ll x.toNat)) else none
  | .emitDist x =>
    if x.toNat < s.ndist.toNat ∧ s.lenAt .d x.toNat ≠ 0
    then some (codeBits (refCode (s.lenAt .d) s.ndist.toNat x.toNat) (s.lenAt .d x.toNat)) else none
  | .pushBit b => some [b]
  | .pushBits v n => if n.toNat ≤ 16 ∧ v.toNat < 2 ^ n.toNat then some (fieldBits v.toNat n.toNat) else none
  | .nop | .wrLlen _ _ | .wrDlen _ _ | .wrClen _ _ | .setNlit _ | .setNdist _ | .build _ | .rdLen _ _ | .rdCode _ _
  | .rdStatus | .rdErrcmd | .blockBegin _ | .blockEnd | .pushByte _ | .flush | .softReset => none

/-! ### Errors and the phase table -/

/-- The state after the command word `w` raised `e` in `s` (R241). -/
def State.raised (s : State) (e : ErrCode) (w : Word) : State := { s with err := e, errcmd := w, phase := .fault }

/-- The table of R214 read by columns: the commands a phase does not allow. -/
def refusedIn : Phase → Instr → Bool
  | .idle, .emitLl _ | .idle, .emitDist _ | .idle, .blockEnd => true
  | .inBlock, .wrLlen _ _ | .inBlock, .wrDlen _ _ | .inBlock, .wrClen _ _ | .inBlock, .setNlit _
  | .inBlock, .setNdist _ | .inBlock, .build _ | .inBlock, .blockBegin _ | .inBlock, .pushByte _
  | .inBlock, .flush => true
  | .done, .blockBegin _ | .done, .emitLl _ | .done, .emitDist _ | .done, .blockEnd => true
  | _, _ => false

/-- The template of a command's rule (40_code_builder.md, R249, R250), for the command `i` of opcode `op` with operand
fields `a` and `b`, of which `legal` says what its row of R73 asks:
* a word of this opcode with illegal fields raises `IllegalCommand` outside `FAULT`, in every phase;
* with legal fields the word `op a b` is the command `i`;
* in `FAULT` it is ignored;
* in another phase not among `phases` (a command allowed in all three has none) it raises `SequenceError`;
* in the others, `own` holds. -/
def CommandRule (op : Byte) (a : BitVec 16) (b : Byte) (i : Instr) (legal : Nat → Nat → Prop) (phases : List Phase)
    (s : State) (own : Prop) : Prop :=
  (∀ (a' : BitVec 16) (b' : Byte), ¬ legal a'.toNat b'.toNat → s.phase ≠ .fault →
    performWord (op ++ a' ++ b') s = .next (s.raised .illegalCommand (op ++ a' ++ b'))) ∧
  (legal a.toNat b.toNat → decode (op ++ a ++ b) = .ok i) ∧
  (legal a.toNat b.toNat → s.phase = .fault → exec i s = .next s) ∧
  (legal a.toNat b.toNat → s.phase ≠ .fault → s.phase ∉ phases →
    exec i s = .next (s.raised .sequenceError (op ++ a ++ b))) ∧
  (legal a.toNat b.toNat → s.phase ∈ phases → own)

/-- The number of a table selector (R71). -/
def selNumber : Table → Byte
  | .ll => 0
  | .d => 1
  | .cl => 2

/-- Every register at its reset value (R261); nothing is said of the model's own fields. -/
def State.atReset (s : State) : Prop := s = { State.reset with host := s.host, cfg := s.cfg }

/-! ### What each command may write (R42) -/

/-- The pieces of state of R20. -/
inductive Reg where
  | llLen | dLen | clLen | llCode | dCode | clCode | nlit | ndist | phase | final | cv | acc | nbits | err | errcmd
  | rdata | out
deriving DecidableEq, Repr

/-- `t` has in `r` what `s` has. -/
def State.sameIn (s t : State) : Reg → Prop
  | .llLen => t.llLen = s.llLen
  | .dLen => t.dLen = s.dLen
  | .clLen => t.clLen = s.clLen
  | .llCode => t.llCode = s.llCode
  | .dCode => t.dCode = s.dCode
  | .clCode => t.clCode = s.clCode
  | .nlit => t.nlit = s.nlit
  | .ndist => t.ndist = s.ndist
  | .phase => t.phase = s.phase
  | .final => t.finalFlag = s.finalFlag
  | .cv => t.cv = s.cv
  | .acc => t.sink.acc = s.sink.acc
  | .nbits => t.sink.nbits = s.sink.nbits
  | .err => t.err = s.err
  | .errcmd => t.errcmd = s.errcmd
  | .rdata => t.rdata = s.rdata
  | .out => t.sink.out = s.sink.out

/-- The column "W by" of R42, by command; `SOFT_RESET` writes everything. -/
def writtenBy : Instr → List Reg
  | .nop => []
  | .wrLlen _ _ => [.llLen, .cv]
  | .wrDlen _ _ => [.dLen, .cv]
  | .wrClen _ _ => [.clLen, .cv]
  | .setNlit _ => [.nlit, .cv]
  | .setNdist _ => [.ndist, .cv]
  | .build _ => [.llCode, .dCode, .clCode, .cv]
  | .rdLen _ _ | .rdCode _ _ | .rdStatus | .rdErrcmd => [.rdata]
  | .blockBegin _ => [.llCode, .dCode, .clCode, .phase, .final, .cv, .acc, .nbits, .out]
  | .emitLl _ | .emitDist _ => [.acc, .nbits, .out]
  | .blockEnd => [.phase, .acc, .nbits, .out]
  | .pushBit _ | .pushBits _ _ | .flush => [.acc, .nbits, .out]
  | .pushByte _ => [.out]
  | .softReset =>
    [.llLen, .dLen, .clLen, .llCode, .dCode, .clCode, .nlit, .ndist, .phase, .final, .cv, .acc, .nbits, .err, .errcmd,
      .rdata, .out]

/-! ### Invariants -/

/-- The ranges the rules derive: R32 (`ACC[7:NBITS] = 0`), R27, R28, "`ERR` … `0` when none" with `FAULT` (R33, R241, R250,
R251), R212 (`ERRCMD` is 0 with no error), and R149 (`DONE` only after a final block). -/
structure State.RegsInv (s : State) : Prop where
  sink_wf : s.sink.wf
  nlit_le : s.nlit.toNat ≤ 286
  ndist_le : s.ndist.toNat ≤ 30
  fault_iff : s.phase = .fault ↔ s.err ≠ .none
  errcmd_zero : s.err = .none → s.errcmd = 0
  done_final : s.phase = .done → s.finalFlag = true

/-- R31: "`CV[t] = 1` means code register file `t` was built from the present contents of length register file `t` and its
count"; and in `IN_BLOCK` all three are valid, the count is at least 257 and every code the block needs exists (R143, R149,
R264). -/
structure State.CodesInv (s : State) : Prop where
  valid : ∀ t, s.cv.get t = true → s.tableError t = none ∧ s.hasCodesOf s t
  inBlock : s.phase = .inBlock → s.beginError = none ∧ ∀ t, s.cv.get t = true

/-- Commands one after another, stopping at a fault or a refusal (R60). -/
def execAll : List Instr → State → Host.Outcome State Fault Refusal
  | [], s => .next s
  | i :: is, s =>
    match exec i s with
    | .next t => execAll is t
    | .fault r => .fault r
    | .refused r => .refused r

/-- A container number as its four bytes, the least significant first (R57). -/
def leBytes (v : Word) : List Byte := (List.range 4).map fun k => BitVec.ofNat 8 (v.toNat / 256 ^ k)

/-- R269: "A run produces a complete container only if it ends in phase `DONE` with `NBITS = 0` … and `ERR = 0`." -/
def State.completeRunEnd (s : State) : Prop := s.phase = .done ∧ s.sink.nbits = 0 ∧ s.err = .none

end Sys2Proof.Machine
end

