-- ==== Sys2Proof/Certificates/Slice0/Obligations.lean ====
section
/-! DEFINITION. The statements for the provers, from the numbered rules of spec/. The terms they use stand in Safety.lean. -/

open Sys2Proof Sys2Proof.Machine

/-! ### Encoding (30_encoding.md) -/

/-- For every legal command, decoding its word gives it back, with every operand (R70 to R73, R77, R78). -/
def Obligations.DecodeInvertsEncode : Prop :=
  ∀ i : Instr, i.wellFormed = true → decode (encode i) = .ok i

/-- The other direction: a word that decodes is the encoding of what it decodes to, so a command has one word and the word
recorded in `ERRCMD` is the one presented (R77; log 5). -/
def Obligations.EncodeInvertsDecode : Prop :=
  ∀ (w : Word) (i : Instr), decode w = .ok i → encode i = w ∧ i.wellFormed = true

/-- The decoder accepts exactly the words whose fields, as numbers, meet the tables of R72 and R73. -/
def Obligations.DecodeAcceptsExactlyLegalFields : Prop :=
  ∀ w : Word, (∃ i, decode w = .ok i) ↔ legalFields (wordFields w)

/-- R248, R74: a word that decode rejects raises `IllegalCommand` in every phase but `FAULT`, whatever the phase allows, and
is ignored in `FAULT`. -/
def Obligations.IllegalWordRaisesIllegalCommand : Prop :=
  ∀ (s : State) (w : Word), ¬ legalFields (wordFields w) →
    (s.phase ≠ .fault → performWord w s = .next (s.raised .illegalCommand w)) ∧
    (s.phase = .fault → performWord w s = .next s)

/-- Words written out from R70 to R73 and R78 decode to the commands they stand for. -/
def Obligations.SampleWordsDecode : Prop :=
  decode 0x00000000 = .ok .nop ∧ decode 0x01010009 = .ok (.wrLlen 256 9) ∧ decode 0x02000101 = .ok (.wrDlen 1 1) ∧
  decode 0x03000804 = .ok (.wrClen 8 4) ∧ decode 0x04011E00 = .ok (.setNlit 286) ∧ decode 0x06000003 = .ok (.build .all) ∧
  decode 0x08010000 = .ok (.rdCode .ll 256) ∧ decode 0x10000001 = .ok (.blockBegin true) ∧
  decode 0x12000200 = .ok (.emitDist 2) ∧ decode 0x21000503 = .ok (.pushBits 5 3) ∧
  decode 0x30000000 = .ok .softReset ∧ decode 0x06000004 = .error (.reservedField 6) ∧
  decode 0x14000000 = .error (.reservedOpcode 0x14) ∧ decode 0x22010000 = .error (.reservedField 0x22)

/-! ### Reset and the step (70_reset_and_hazards.md) -/

/-- R261: what reset leaves in every register, and so `STATUS = 0` and `ERR_OUT = 0`. -/
def Obligations.ResetLeavesEveryRegisterZero : Prop :=
  (∀ j < 286, regAt State.reset.llLen j = 0 ∧ regAt State.reset.llCode j = 0) ∧
  (∀ j < 30, regAt State.reset.dLen j = 0 ∧ regAt State.reset.dCode j = 0) ∧
  (∀ j < 19, regAt State.reset.clLen j = 0 ∧ regAt State.reset.clCode j = 0) ∧
  State.reset.nlit = 0 ∧ State.reset.ndist = 0 ∧ State.reset.phase = .idle ∧ State.reset.finalFlag = false ∧
  State.reset.cv = ⟨false, false, false⟩ ∧ State.reset.sink.acc = 0 ∧ State.reset.sink.nbits = 0 ∧
  State.reset.err = .none ∧ State.reset.errcmd = 0 ∧ State.reset.rdata = 0 ∧ State.reset.sink.out = [] ∧
  State.reset.errOut = false ∧ State.reset.status = 0

/-- R213, R260: in every phase `SOFT_RESET` and the reset input set every register to its reset value and start a new stream;
a malformed `SOFT_RESET` raises `IllegalCommand`, or is ignored in `FAULT`. -/
def Obligations.ResetsReachEveryRegister : Prop :=
  ∀ s : State, (∃ t, exec .softReset s = .next t ∧ t.atReset) ∧ decode 0x30000000 = .ok .softReset ∧
    (∀ rest, s.host = .reset :: rest → ∃ t, step s = .next t ∧ t.atReset) ∧
    ∀ (a : BitVec 16) (b : Byte), ¬ (a.toNat = 0 ∧ b.toNat = 0) →
      (s.phase ≠ .fault → performWord ((0x30 : Byte) ++ a ++ b) s =
        .next (s.raised .illegalCommand ((0x30 : Byte) ++ a ++ b))) ∧
      (s.phase = .fault → performWord ((0x30 : Byte) ++ a ++ b) s = .next s)

/-- A step runs the decoded command: the word leaves the host's list and is executed (R5, R77); in general a step performs
the word presented, legal or not. That the words stand in a list of `State` is the model's choice (log 2). -/
def Obligations.StepRunsDecodedCommand : Prop :=
  ∀ (s : State) (w : Word) (rest : List HostEvent), s.host = .command w :: rest →
    (∀ i, decode w = .ok i → step s = exec i { s with host := rest }) ∧
    step s = performWord w { s with host := rest }

/-- With nothing presented the block waits, unchanged (R260: "the block waits for the host's first command"; the step without
an event is the model's choice, log 2). -/
def Obligations.StepWithoutHostEventWaits : Prop :=
  ∀ s : State, s.host = [] → step s = .next s

/-- No step changes the model parameter (R6), and a step takes exactly one event from the host's list; both fields are the
model's own (log 1, log 2, log 4). -/
def Obligations.StepTakesOneEventAndKeepsTheParameter : Prop :=
  ∀ s t : State, step s = .next t → t.cfg = s.cfg ∧ t.host = s.host.tail

/-- Every command and every step answers a next state: an error too is one (R241), and no command stops the machine. -/
def Obligations.EveryCommandAnswersNext : Prop :=
  (∀ (i : Instr) (s : State), ∃ t, exec i s = .next t) ∧ ∀ s : State, ∃ t, step s = .next t

/-! ### Errors (60_exceptions.md) -/

/-- R250: in `FAULT` the block performs the words of `NOP`, `RD_STATUS`, `RD_ERRCMD` and `SOFT_RESET`; every other word has no
effect at all. -/
def Obligations.FaultIgnoresEveryOtherWord : Prop :=
  ∀ s : State, s.phase = .fault →
    (∀ w : Word, w ≠ 0x00000000 → w ≠ 0x09000000 → w ≠ 0x0A000000 → w ≠ 0x30000000 → performWord w s = .next s) ∧
    performWord 0x00000000 s = .next s ∧
    performWord 0x09000000 s = .next { s with rdata := s.status } ∧
    performWord 0x0A000000 s = .next { s with rdata := s.errcmd } ∧
    ∃ t, performWord 0x30000000 s = .next t ∧ t.atReset

/-- R247: a legal command in a phase the table of R214 does not allow raises `SequenceError`, and so does `PUSH_BYTE` off a
byte boundary. -/
def Obligations.PhaseViolationRaisesSequenceError : Prop :=
  (∀ (i : Instr) (s : State), i.wellFormed = true → refusedIn s.phase i = true →
    exec i s = .next (s.raised .sequenceError (encode i))) ∧
  ∀ (v : Byte) (s : State), s.phase = .idle ∨ s.phase = .done → s.sink.nbits ≠ 0 →
    exec (.pushByte v) s = .next (s.raised .sequenceError (encode (.pushByte v)))

/-- R241, R242: whatever word brings the block into `FAULT`, that command writes `ERR`, `ERRCMD` (the word) and `PHASE`, and
nothing else. -/
def Obligations.ErrorsWriteOnlyTheErrorRegisters : Prop :=
  ∀ (s t : State) (w : Word), s.phase ≠ .fault → performWord w s = .next t → t.phase = .fault →
    t.err ≠ .none ∧ t = s.raised t.err w

/-- `ERR` and `ERRCMD` keep the first error: no word but `SOFT_RESET` changes them once an error is recorded (R33, R34, R249,
R251). The premise is an invariant of the machine. -/
def Obligations.FirstErrorIsKept : Prop :=
  ∀ (s t : State) (w : Word), s.RegsInv → s.err ≠ .none → w ≠ 0x30000000 → performWord w s = .next t →
    t.err = s.err ∧ t.errcmd = s.errcmd

/-- The ways out of `FAULT` are `SOFT_RESET` and the reset input, and both reset the whole block; any other step in `FAULT`
keeps every register but `RDATA` (R251). The host's list is the model's own (log 2, log 3). -/
def Obligations.OnlyResetLeavesFault : Prop :=
  ∀ s t : State, s.phase = .fault → step s = .next t →
    ((∃ rest, s.host = .command 0x30000000 :: rest ∨ s.host = .reset :: rest) ∧ t.atReset) ∨
    t = { s with host := t.host, rdata := t.rdata }

/-! ### The code builder (40_code_builder.md) -/

/-- R100, R101, R102: the three length writes, whole: the encoding, the index bound, the phases, the entry written, the other
entries, the valid flag cleared and everything else unchanged. -/
def Obligations.LengthWrites : Prop :=
  ∀ (s : State) (i : BitVec 16) (v : Byte),
    CommandRule 0x01 i v (.wrLlen i v) (fun a _ => a < 286) [.idle, .done] s (∃ t, exec (.wrLlen i v) s = .next t ∧
      regAt t.llLen i.toNat = v ∧ (∀ j, j ≠ i.toNat → regAt t.llLen j = regAt s.llLen j) ∧
      t = { s with llLen := t.llLen, cv := { s.cv with ll := false } }) ∧
    CommandRule 0x02 i v (.wrDlen i v) (fun a _ => a < 30) [.idle, .done] s (∃ t, exec (.wrDlen i v) s = .next t ∧
      regAt t.dLen i.toNat = v ∧ (∀ j, j ≠ i.toNat → regAt t.dLen j = regAt s.dLen j) ∧
      t = { s with dLen := t.dLen, cv := { s.cv with d := false } }) ∧
    CommandRule 0x03 i v (.wrClen i v) (fun a _ => a < 19) [.idle, .done] s (∃ t, exec (.wrClen i v) s = .next t ∧
      regAt t.clLen i.toNat = v ∧ (∀ j, j ≠ i.toNat → regAt t.clLen j = regAt s.clLen j) ∧
      t = { s with clLen := t.clLen, cv := { s.cv with cl := false } })

/-- R103, R104: the two count writes, whole. -/
def Obligations.CountWrites : Prop :=
  ∀ (s : State) (n : BitVec 16),
    CommandRule 0x04 n 0 (.setNlit n) (fun _ b => b = 0) [.idle, .done] s
      ((286 < n.toNat → exec (.setNlit n) s = .next (s.raised .invalidLengthTable ((0x04 : Byte) ++ n ++ (0 : Byte)))) ∧
      (n.toNat ≤ 286 → ∃ t, exec (.setNlit n) s = .next t ∧ t.nlit.toNat = n.toNat ∧
        t = { s with nlit := t.nlit, cv := { s.cv with ll := false } })) ∧
    CommandRule 0x05 n 0 (.setNdist n) (fun _ b => b = 0) [.idle, .done] s
      ((30 < n.toNat → exec (.setNdist n) s = .next (s.raised .invalidLengthTable ((0x05 : Byte) ++ n ++ (0 : Byte)))) ∧
      (n.toNat ≤ 30 → ∃ t, exec (.setNdist n) s = .next t ∧ t.ndist.toNat = n.toNat ∧
        t = { s with ndist := t.ndist, cv := { s.cv with d := false } }))

/-- R111 with R105 to R110: `BUILD` of one table. The 16-bit loop of the machine gives the codes the source defines on
unbounded numbers, and the table's error otherwise. -/
def Obligations.BuildOneTable : Prop :=
  ∀ (s : State) (x : Table),
    CommandRule 0x06 0 (selNumber x) (.build (.one x)) (fun a b => a = 0 ∧ b ≤ 3) [.idle, .done] s
      ((∀ e, s.tableError x = some e →
        exec (.build (.one x)) s = .next (s.raised e ((0x06 : Byte) ++ (0 : BitVec 16) ++ selNumber x))) ∧
      (s.tableError x = none → ∃ t, exec (.build (.one x)) s = .next t ∧ t.hasCodesOf s x ∧
        t.cv = s.cv.put true x ∧ (∀ y, y ≠ x → t.code y = s.code y) ∧
        t = { s with llCode := t.llCode, dCode := t.dCode, clCode := t.clCode, cv := t.cv }))

/-- R111 with `ALL`: the first failing table in the order LL, D, CL names the error and nothing is committed; else all three
code files and all three flags. -/
def Obligations.BuildAllTables : Prop :=
  ∀ s : State,
    CommandRule 0x06 0 3 (.build .all) (fun a b => a = 0 ∧ b ≤ 3) [.idle, .done] s
      ((∀ e, s.buildError = some e → exec (.build .all) s = .next (s.raised e 0x06000003)) ∧
      (s.buildError = none → ∃ t, exec (.build .all) s = .next t ∧ (∀ x, t.hasCodesOf s x) ∧
        t.cv = ⟨true, true, true⟩ ∧
        t = { s with llCode := t.llCode, dCode := t.dCode, clCode := t.clCode, cv := t.cv }))

/-- R114: a build reads only `LEN[0..n-1]`, `n`, `maxlen` and `KRAFT_CHECK`. -/
def Obligations.BuildReadsOnlyTheTable : Prop :=
  ∀ (size : Nat) (a b : Vector Byte size) (n maxlen : Nat) (kraft : Bool),
    (∀ j < n, regAt a j = regAt b j) → buildCodes kraft a n maxlen = buildCodes kraft b n maxlen

/-- R115: after a successful build with `K ≤ 2^15` every used code is below `2^L` and no used code is a bit-prefix of
another; and with `KRAFT_CHECK` every successful build has `K ≤ 2^15`. -/
def Obligations.BuiltCodesArePrefixFree : Prop :=
  ∀ (size : Nat) (lens : Vector Byte size) (n maxlen : Nat) (kraft : Bool) (codes : Vector Code size),
    maxlen ≤ 15 → buildCodes kraft lens n maxlen = .ok codes →
    (kraft = true → refKraft (fun j => (regAt lens j).toNat) n ≤ 2 ^ 15) ∧
    (refKraft (fun j => (regAt lens j).toNat) n ≤ 2 ^ 15 →
      (∀ j < n, regAt lens j ≠ 0 → (regAt codes j).toNat < 2 ^ (regAt lens j).toNat) ∧
      ∀ i < n, ∀ j < n, i ≠ j → regAt lens i ≠ 0 → regAt lens j ≠ 0 →
        ¬ codeBits (regAt codes i).toNat (regAt lens i).toNat <+: codeBits (regAt codes j).toNat (regAt lens j).toNat)

/-- R26's remark on the code-length alphabet, with `KRAFT_CHECK` (without it the remark fails, log 13): only the low 7 bits
of a built code can be non-zero. -/
def Obligations.CodeLengthCodesFitSevenBits : Prop :=
  ∀ (lens : Vector Byte 19) (codes : Vector Code 19), buildCodes true lens 19 7 = .ok codes →
    ∀ j, (regAt codes j).toNat < 2 ^ 7

/-- R116: the placeholder table, symbols 0 to 225 of length 8 and 226 to 285 of length 9, gets the codes 0 to 225 and 452 to
511; the end-of-block symbol 256 gets 482. -/
def Obligations.PlaceholderTableCodes : Prop :=
  ∃ codes, buildCodes true (Vector.replicate 226 (8 : Byte) ++ Vector.replicate 60 (9 : Byte)) 286 15 = .ok codes ∧
    (∀ j < 226, (regAt codes j).toNat = j) ∧ (∀ j < 60, (regAt codes (226 + j)).toNat = 452 + j) ∧
    (regAt codes 256).toNat = 482

/-- R112, R113: the two read-backs, whole. -/
def Obligations.ReadBacks : Prop :=
  ∀ (s : State) (x : Table) (i : BitVec 16),
    CommandRule 0x07 i (selNumber x) (.rdLen x i)
      (fun a b => (b = 0 ∧ a < 286) ∨ (b = 1 ∧ a < 30) ∨ (b = 2 ∧ a < 19)) [.idle, .inBlock, .done] s
      (∃ t, exec (.rdLen x i) s = .next t ∧
        t.rdata.toNat = (regAt (s.len x) i.toNat).toNat ∧ t = { s with rdata := t.rdata }) ∧
    CommandRule 0x08 i (selNumber x) (.rdCode x i)
      (fun a b => (b = 0 ∧ a < 286) ∨ (b = 1 ∧ a < 30) ∨ (b = 2 ∧ a < 19)) [.idle, .inBlock, .done] s
      (∃ t, exec (.rdCode x i) s = .next t ∧
        t.rdata.toNat = (regAt (s.code x) i.toNat).toNat ∧ t = { s with rdata := t.rdata })

/-! ### The block serializer (41_block_serializer.md) -/

/-- R143 with R142 and R144 to R146: `BLOCK_BEGIN`. The errors in their order; else all codes built and valid, the whole
header appended bit by bit, `FINAL` and `PHASE`, and nothing else. -/
def Obligations.BlockBeginEmitsTheHeader : Prop :=
  ∀ (s : State) (f : Bool),
    CommandRule 0x10 0 (if f then 1 else 0) (.blockBegin f) (fun a b => a = 0 ∧ b ≤ 1) [.idle] s
      ((∀ e, s.beginError = some e → exec (.blockBegin f) s =
        .next (s.raised e ((0x10 : Byte) ++ (0 : BitVec 16) ++ (if f then 1 else 0 : Byte)))) ∧
      (s.beginError = none → ∃ t, exec (.blockBegin f) s = .next t ∧ (∀ x, t.hasCodesOf s x) ∧
        t.cv = ⟨true, true, true⟩ ∧ t.finalFlag = f ∧ t.phase = .inBlock ∧
        (s.sink.wf → t.sink.wf ∧ t.sink.bits = s.sink.bits ++ s.headerBits f) ∧
        t = { s with llCode := t.llCode, dCode := t.dCode, clCode := t.clCode, cv := t.cv, finalFlag := t.finalFlag,
                     phase := t.phase, sink := t.sink }))

/-- A block never depends on what an earlier one left: the header, the codes and the next state are the same whatever the
code registers, the valid flags and `FINAL` held before (R62, R152). -/
def Obligations.BlockBeginIgnoresOldCodes : Prop :=
  ∀ (s t : State) (f : Bool) (c1 : Vector Code 286) (c2 : Vector Code 30) (c3 : Vector Code 19) (cv : CodesValid) (g : Bool),
    s.phase = .idle → exec (.blockBegin f) s = .next t → t.phase ≠ .fault →
    exec (.blockBegin f) { s with llCode := c1, dCode := c2, clCode := c3, cv := cv, finalFlag := g } = .next t

/-- R147, R148: the two symbol commands, whole: a symbol outside its table or without a code raises `SymbolNotEncodable`;
else exactly its `length` code bits are appended, most significant first, and nothing else changes. -/
def Obligations.EmitSymbols : Prop :=
  ∀ (s : State) (sym : BitVec 16),
    CommandRule 0x11 sym 0 (.emitLl sym) (fun _ b => b = 0) [.inBlock] s
      ((s.nlit.toNat ≤ sym.toNat ∨ regAt s.llLen sym.toNat = 0 →
        exec (.emitLl sym) s = .next (s.raised .symbolNotEncodable ((0x11 : Byte) ++ sym ++ (0 : Byte)))) ∧
      (sym.toNat < s.nlit.toNat → regAt s.llLen sym.toNat ≠ 0 → ∃ t, exec (.emitLl sym) s = .next t ∧
        (s.sink.wf → t.sink.wf ∧ t.sink.bits =
          s.sink.bits ++ codeBits (regAt s.llCode sym.toNat).toNat (regAt s.llLen sym.toNat).toNat) ∧
        t = { s with sink := t.sink })) ∧
    CommandRule 0x12 sym 0 (.emitDist sym) (fun _ b => b = 0) [.inBlock] s
      ((s.ndist.toNat ≤ sym.toNat ∨ regAt s.dLen sym.toNat = 0 →
        exec (.emitDist sym) s = .next (s.raised .symbolNotEncodable ((0x12 : Byte) ++ sym ++ (0 : Byte)))) ∧
      (sym.toNat < s.ndist.toNat → regAt s.dLen sym.toNat ≠ 0 → ∃ t, exec (.emitDist sym) s = .next t ∧
        (s.sink.wf → t.sink.wf ∧ t.sink.bits =
          s.sink.bits ++ codeBits (regAt s.dCode sym.toNat).toNat (regAt s.dLen sym.toNat).toNat) ∧
        t = { s with sink := t.sink }))

/-- R149: `BLOCK_END`, whole: the end-of-block code, then `DONE` after a final block and `IDLE` after another. -/
def Obligations.BlockEndClosesTheBlock : Prop :=
  ∀ s : State,
    CommandRule 0x13 0 0 .blockEnd (fun a b => a = 0 ∧ b = 0) [.inBlock] s (∃ t, exec .blockEnd s = .next t ∧
      (s.sink.wf → t.sink.wf ∧ t.sink.bits =
        s.sink.bits ++ codeBits (regAt s.llCode 256).toNat (regAt s.llLen 256).toNat) ∧
      (s.finalFlag = true → t.phase = .done) ∧ (s.finalFlag = false → t.phase = .idle) ∧
      t = { s with sink := t.sink, phase := t.phase })

/-- An open block can be closed: `BLOCK_END` completes without an error, and appends the canonical end-of-block code of the
transmitted lengths, 1 to 15 bits long (R149: "`SymbolNotEncodable` cannot arise"). The premise is an invariant of the
machine. -/
def Obligations.OpenBlockCanBeClosed : Prop :=
  ∀ s : State, s.CodesInv → s.phase = .inBlock → ∃ t, exec .blockEnd s = .next t ∧ t.phase ≠ .fault ∧ t.err = s.err ∧
    1 ≤ s.lenAt .ll 256 ∧ s.lenAt .ll 256 ≤ 15 ∧
    (s.sink.wf → t.sink.bits =
      s.sink.bits ++ codeBits (refCode (s.lenAt .ll) s.nlit.toNat 256) (s.lenAt .ll 256))

/-- R151: the bit counts of the four serializer commands, each when it raises no error. -/
def Obligations.SerializerBitCounts : Prop :=
  ∀ s t : State, t.phase ≠ .fault →
    (∀ f, s.phase = .idle → exec (.blockBegin f) s = .next t →
      t.sink.bitCount = s.sink.bitCount + (74 + (s.refVals.map (s.lenAt .cl)).sum)) ∧
    (∀ sym, s.phase = .inBlock → exec (.emitLl sym) s = .next t →
      t.sink.bitCount = s.sink.bitCount + (regAt s.llLen sym.toNat).toNat) ∧
    (∀ sym, s.phase = .inBlock → exec (.emitDist sym) s = .next t →
      t.sink.bitCount = s.sink.bitCount + (regAt s.dLen sym.toNat).toNat) ∧
    (s.phase = .inBlock → exec .blockEnd s = .next t →
      t.sink.bitCount = s.sink.bitCount + (regAt s.llLen 256).toNat)

/-- A whole block is contiguous (R140): from `IDLE`, `BLOCK_BEGIN f`, any sequence of literal/length (`true`) and distance
(`false`) symbols that have codes, and `BLOCK_END` append the header, the symbols' codes and the end-of-block code, with no
bit between, all under the canonical codes of the transmitted lengths. -/
def Obligations.BlockBitsAreContiguous : Prop :=
  ∀ (s : State) (f : Bool) (syms : List (Bool × BitVec 16)), s.phase = .idle → s.sink.wf → s.beginError = none →
    (∀ p ∈ syms, if p.1 then p.2.toNat < s.nlit.toNat ∧ s.lenAt .ll p.2.toNat ≠ 0
      else p.2.toNat < s.ndist.toNat ∧ s.lenAt .d p.2.toNat ≠ 0) →
    ∃ t, execAll (.blockBegin f :: (syms.map fun p => if p.1 then .emitLl p.2 else .emitDist p.2) ++ [.blockEnd]) s
        = .next t ∧
      t.phase = (if f then .done else .idle) ∧
      t.sink.bits = s.sink.bits ++ s.headerBits f ++
        syms.flatMap (fun p =>
          if p.1 then codeBits (refCode (s.lenAt .ll) s.nlit.toNat p.2.toNat) (s.lenAt .ll p.2.toNat)
          else codeBits (refCode (s.lenAt .d) s.ndist.toNat p.2.toNat) (s.lenAt .d p.2.toNat)) ++
        codeBits (refCode (s.lenAt .ll) s.nlit.toNat 256) (s.lenAt .ll 256)

/-- Step 7 of a block with the host's extra bits (R140, R150): in an open block any sequence of symbols that have codes,
`PUSH_BIT` and `PUSH_BITS` completes, appends exactly their bits in order, with no bit between, and changes nothing but the
sink. The premise is an invariant of the machine. -/
def Obligations.OpenBlockBodyBits : Prop :=
  ∀ (s : State) (body : List (Instr × List Bool)), s.CodesInv → s.phase = .inBlock → s.sink.wf →
    (∀ p ∈ body, s.bodyBits p.1 = some p.2) →
    ∃ t, execAll (body.map Prod.fst) s = .next t ∧ t.sink.wf ∧
      t.sink.bits = s.sink.bits ++ body.flatMap Prod.snd ∧ t = { s with sink := t.sink }

/-! ### The bitstream packer and the sink (20_memory.md, 42_bitstream_packer.md) -/

/-- R52, R53, R54: the primitives append one bit, the `n` bits of a field from bit 0, and the `L` bits of a code from bit
`L-1`. The premise is the invariant of R32. -/
def Obligations.SinkPrimitivesAppendInOrder : Prop :=
  ∀ k : Sink, k.wf →
    (∀ b, (k.pushBit b).wf ∧ (k.pushBit b).bits = k.bits ++ [b]) ∧
    (∀ v n, (k.pushBits v n).wf ∧ (k.pushBits v n).bits = k.bits ++ fieldBits v n) ∧
    (∀ c L, (k.pushCode c L).wf ∧ (k.pushCode c L).bits = k.bits ++ codeBits c.toNat L)

/-- R56: at a byte boundary `AppendByte(v)` "has the same effect as `PushBits(v, 8)`". -/
def Obligations.AppendByteIsPushBitsOfEight : Prop :=
  ∀ (k : Sink) (v : Byte), k.wf → k.nbits = 0 → k.appendByte v = k.pushBits v.toNat 8

/-- R180, R181: the two bit commands, whole, with the growth of `OUT`. -/
def Obligations.PushBitAndPushBits : Prop :=
  ∀ (s : State) (b : Bool) (v : BitVec 16) (n : Byte),
    CommandRule 0x20 0 (if b then 1 else 0) (.pushBit b) (fun a b => a = 0 ∧ b ≤ 1) [.idle, .inBlock, .done] s
      (∃ t, exec (.pushBit b) s = .next t ∧
        (s.sink.wf → t.sink.wf ∧ t.sink.bits = s.sink.bits ++ [b]) ∧
        t.sink.out.length = s.sink.out.length + (s.sink.nbits.toNat + 1) / 8 ∧ t = { s with sink := t.sink }) ∧
    CommandRule 0x21 v n (.pushBits v n) (fun a b => b ≤ 16 ∧ a < 2 ^ b) [.idle, .inBlock, .done] s
      (∃ t, exec (.pushBits v n) s = .next t ∧
        (s.sink.wf → t.sink.wf ∧ t.sink.bits = s.sink.bits ++ fieldBits v.toNat n.toNat) ∧
        t.sink.out.length = s.sink.out.length + (s.sink.nbits.toNat + n.toNat) / 8 ∧ t = { s with sink := t.sink })

/-- R182: `PUSH_BYTE`, whole. -/
def Obligations.PushByteAppendsAtABoundary : Prop :=
  ∀ (s : State) (v : Byte),
    CommandRule 0x22 0 v (.pushByte v) (fun a _ => a = 0) [.idle, .done] s
      ((s.sink.nbits ≠ 0 → exec (.pushByte v) s =
        .next (s.raised .sequenceError ((0x22 : Byte) ++ (0 : BitVec 16) ++ v))) ∧
      (s.sink.nbits = 0 →
        exec (.pushByte v) s = .next { s with sink := { s.sink with out := s.sink.out ++ [v] } }))

/-- R183, R55: `FLUSH`, whole: at a boundary nothing; else the partial byte is delivered, its pad bits zero. -/
def Obligations.FlushPadsWithZeros : Prop :=
  ∀ s : State,
    CommandRule 0x23 0 0 .flush (fun a b => a = 0 ∧ b = 0) [.idle, .done] s
      ((s.sink.nbits = 0 → exec .flush s = .next s) ∧
      (s.sink.nbits ≠ 0 → ∃ t, exec .flush s = .next t ∧ t.sink.acc = 0 ∧ t.sink.nbits = 0 ∧
        t.sink.out = s.sink.out ++ [s.sink.acc] ∧
        (s.sink.wf → t.sink.bits = s.sink.bits ++ List.replicate (8 - s.sink.nbits.toNat) false) ∧
        t = { s with sink := t.sink }))

/-- R36: `OUT` only grows: no command but `SOFT_RESET` takes back or reorders a delivered byte. -/
def Obligations.OutOnlyGrows : Prop :=
  ∀ (i : Instr) (s t : State), i ≠ .softReset → exec i s = .next t → s.sink.out <+: t.sink.out

/-- The container's fixed bytes as the host's command sequences send them (R57, R186 to R188): from a byte boundary in `IDLE`
`GZIP_HEADER` appends its ten bytes; in `DONE` `GZIP_TRAILER` pads, appends CRC-32 and length, least significant byte
first, and leaves a complete run (R269). The two sequences are the pseudo-commands of R79. -/
def Obligations.ContainerHeaderAndTrailer : Prop :=
  (∀ (s : State) (flg xfl os : Byte) (mtime : Word), s.phase = .idle → s.sink.nbits = 0 →
    execAll (gzipHeader flg mtime xfl os) s = .next { s with sink := { s.sink with
      out := s.sink.out ++ [0x1F, 0x8B, 0x08, flg] ++ leBytes mtime ++ [xfl, os] } }) ∧
  ∀ (s : State) (crc isize : Word), s.phase = .done →
    ∃ t, execAll (gzipTrailer crc isize) s = .next t ∧ t = { s with sink := t.sink } ∧ t.sink.nbits = 0 ∧
      t.sink.out = s.sink.out ++ (if s.sink.nbits = 0 then [] else [s.sink.acc]) ++ leBytes crc ++ leBytes isize ∧
      (s.err = .none → t.completeRunEnd)

/-! ### Control, status and the phase machine (43_control.md, 10_state.md) -/

/-- R210, R211, R212, R37: in every phase, `NOP` changes nothing, `RD_STATUS` reads the status word and `RD_ERRCMD` the
recorded word, and nothing but `RDATA` changes; with a non-zero field each raises `IllegalCommand`, or is ignored in
`FAULT`. -/
def Obligations.ControlCommandsRunInEveryPhase : Prop :=
  ∀ s : State, exec .nop s = .next s ∧ exec .rdErrcmd s = .next { s with rdata := s.errcmd } ∧
    (∃ t, exec .rdStatus s = .next t ∧ t = { s with rdata := t.rdata } ∧
      t.rdata.toNat = s.sink.acc.toNat * 2 ^ 24 + s.err.bits.toNat * 2 ^ 16 + s.sink.nbits.toNat * 2 ^ 8 +
        (s.cv.cl.toNat * 4 + s.cv.d.toNat * 2 + s.cv.ll.toNat) * 2 ^ 3 + s.finalFlag.toNat * 2 ^ 2 +
        s.phase.bits.toNat) ∧
    decode 0x00000000 = .ok .nop ∧ decode 0x09000000 = .ok .rdStatus ∧ decode 0x0A000000 = .ok .rdErrcmd ∧
    ∀ op ∈ [(0x00 : Byte), 0x09, 0x0A], ∀ (a : BitVec 16) (b : Byte), ¬ (a.toNat = 0 ∧ b.toNat = 0) →
      (s.phase ≠ .fault → performWord (op ++ a ++ b) s = .next (s.raised .illegalCommand (op ++ a ++ b))) ∧
      (s.phase = .fault → performWord (op ++ a ++ b) s = .next s)

/-- The numbers of the status fields (R29, R240) and the error output (R252). -/
def Obligations.StatusEncodings : Prop :=
  Phase.idle.bits = 0 ∧ Phase.inBlock.bits = 1 ∧ Phase.done.bits = 2 ∧ Phase.fault.bits = 3 ∧
  ErrCode.none.bits = 0 ∧ ErrCode.invalidLengthTable.bits = 1 ∧ ErrCode.symbolNotEncodable.bits = 2 ∧
  ErrCode.incompleteCodeTable.bits = 3 ∧ ErrCode.lengthTableTooShort.bits = 4 ∧ ErrCode.sequenceError.bits = 5 ∧
  ErrCode.illegalCommand.bits = 6 ∧ ∀ s : State, s.errOut = true ↔ s.phase = .fault

/-- The transitions of R214: "Any transition not in this table does not happen". -/
def Obligations.OnlyTheListedPhaseTransitions : Prop :=
  ∀ (i : Instr) (s t : State), exec i s = .next t → t.phase ≠ s.phase →
    (s.phase = .idle ∧ t.phase = .inBlock ∧ s.beginError = none ∧ ∃ f, i = .blockBegin f) ∨
    (s.phase = .inBlock ∧ t.phase = .idle ∧ i = .blockEnd ∧ s.finalFlag = false) ∨
    (s.phase = .inBlock ∧ t.phase = .done ∧ i = .blockEnd ∧ s.finalFlag = true) ∨
    (s.phase ≠ .fault ∧ t.phase = .fault ∧ t.err ≠ .none) ∨
    (t.phase = .idle ∧ i = .softReset)

/-- R264: while a block is open, the table commands raise `SequenceError`, and no command but `SOFT_RESET` changes a length,
a count, a code, a valid flag or `FINAL`. -/
def Obligations.TablesAreLockedInABlock : Prop :=
  ∀ (i : Instr) (s t : State), s.phase = .inBlock → i ≠ .softReset → exec i s = .next t →
    (t.llLen = s.llLen ∧ t.dLen = s.dLen ∧ t.clLen = s.clLen ∧ t.nlit = s.nlit ∧ t.ndist = s.ndist ∧
      t.llCode = s.llCode ∧ t.dCode = s.dCode ∧ t.clCode = s.clCode ∧ t.cv = s.cv ∧ t.finalFlag = s.finalFlag) ∧
    (i.wellFormed = true →
      (∃ j v, i = .wrLlen j v ∨ i = .wrDlen j v ∨ i = .wrClen j v) ∨ (∃ n, i = .setNlit n ∨ i = .setNdist n) ∨
        (∃ x, i = .build x) → t = s.raised .sequenceError (encode i))

/-- The frame of every command (R42): a command changes no register outside its row of the table "W by", but `PHASE`, `ERR`
and `ERRCMD` where it raises an error; `SOFT_RESET` alone writes everything. -/
def Obligations.CommandsWriteOnlyTheirRow : Prop :=
  ∀ (i : Instr) (s t : State) (r : Reg), exec i s = .next t → r ∉ writtenBy i →
    (r = .phase ∨ r = .err ∨ r = .errcmd → s.phase ≠ .fault → t.phase ≠ .fault) → s.sameIn t r

/-! ### Invariants -/

/-- The invariant of the ranges holds at reset (R261). -/
def Obligations.RegsInvAtReset : Prop := State.reset.RegsInv

/-- Every step keeps the ranges the rules derive (R27, R28, R32, R33, R212, R214). -/
def Obligations.StepKeepsRegsInv : Prop := ∀ s t : State, s.RegsInv → step s = .next t → t.RegsInv

/-- The invariant of the codes holds at reset (R261). -/
def Obligations.CodesInvAtReset : Prop := State.reset.CodesInv

/-- Every step keeps the meaning of `CV` (R31), and in an open block all three tables stay built from the lengths the header
transmitted (R143, R264). -/
def Obligations.StepKeepsCodesInv : Prop := ∀ s t : State, s.CodesInv → step s = .next t → t.CodesInv
end

