-- ==== Sys2Proof/Laws/State.lean ====
section
/-! SUPPORT. One lemma per field per update, and the laws of the register files. -/

namespace Sys2Proof.Machine

/-! ### Register files -/

theorem regAt_eq_getElem {w n : Nat} (file : Vector (BitVec w) n) {i : Nat} (h : i < n) : regAt file i = file[i] := by
  simp [regAt, h]

theorem regAt_past_end {w n : Nat} (file : Vector (BitVec w) n) {i : Nat} (h : n ≤ i) : regAt file i = 0 := by
  simp [regAt, h]

theorem regAt_regSet_same {w n : Nat} (file : Vector (BitVec w) n) {i : Nat} (v : BitVec w) (h : i < n) :
    regAt (regSet file i v) i = v := by
  simp [regAt, regSet, h]

theorem regAt_regSet_other {w n : Nat} (file : Vector (BitVec w) n) {i j : Nat} (v : BitVec w) (h : j ≠ i) :
    regAt (regSet file i v) j = regAt file j := by
  simp [regAt, regSet, Vector.getElem?_setIfInBounds_ne (Ne.symm h)]

@[simp] theorem regAt_replicate_zero {w n : Nat} (j : Nat) : regAt (Vector.replicate n 0#w) j = 0#w := by
  by_cases h : j < n <;> simp [regAt, h]

theorem regAt_ext {w n : Nat} {a b : Vector (BitVec w) n} (h : ∀ j, regAt a j = regAt b j) : a = b := by
  apply Vector.ext
  intro j hj
  have := h j
  rwa [regAt_eq_getElem a hj, regAt_eq_getElem b hj] at this

/-! ### Valid flags -/

@[simp] theorem CodesValid.get_put_same (cv : CodesValid) (b : Bool) (t : Table) : (cv.put b t).get t = b := by
  cases t <;> rfl

theorem CodesValid.get_put_other (cv : CodesValid) (b : Bool) {t u : Table} (h : u ≠ t) :
    (cv.put b t).get u = cv.get u := by
  cases t <;> cases u <;> first | rfl | exact absurd rfl h

/-! ### A length file written -/

section putLen
variable (s : State) (t : Table) (file : Vector Byte t.size)

@[simp] theorem State.putLen_len_same : (s.putLen t file).len t = file := by cases t <;> rfl
theorem State.putLen_len_other {u : Table} (h : u ≠ t) : (s.putLen t file).len u = s.len u := by
  cases t <;> cases u <;> first | rfl | exact absurd rfl h
@[simp] theorem State.putLen_cv : (s.putLen t file).cv = s.cv.put false t := by cases t <;> rfl
@[simp] theorem State.putLen_code (u : Table) : (s.putLen t file).code u = s.code u := by cases t <;> cases u <;> rfl
@[simp] theorem State.putLen_count (u : Table) : (s.putLen t file).count u = s.count u := by cases t <;> cases u <;> rfl
@[simp] theorem State.putLen_llCode : (s.putLen t file).llCode = s.llCode := by cases t <;> rfl
@[simp] theorem State.putLen_dCode : (s.putLen t file).dCode = s.dCode := by cases t <;> rfl
@[simp] theorem State.putLen_clCode : (s.putLen t file).clCode = s.clCode := by cases t <;> rfl
@[simp] theorem State.putLen_nlit : (s.putLen t file).nlit = s.nlit := by cases t <;> rfl
@[simp] theorem State.putLen_ndist : (s.putLen t file).ndist = s.ndist := by cases t <;> rfl
@[simp] theorem State.putLen_phase : (s.putLen t file).phase = s.phase := by cases t <;> rfl
@[simp] theorem State.putLen_finalFlag : (s.putLen t file).finalFlag = s.finalFlag := by cases t <;> rfl
@[simp] theorem State.putLen_sink : (s.putLen t file).sink = s.sink := by cases t <;> rfl
@[simp] theorem State.putLen_err : (s.putLen t file).err = s.err := by cases t <;> rfl
@[simp] theorem State.putLen_errcmd : (s.putLen t file).errcmd = s.errcmd := by cases t <;> rfl
@[simp] theorem State.putLen_rdata : (s.putLen t file).rdata = s.rdata := by cases t <;> rfl
@[simp] theorem State.putLen_host : (s.putLen t file).host = s.host := by cases t <;> rfl
@[simp] theorem State.putLen_cfg : (s.putLen t file).cfg = s.cfg := by cases t <;> rfl
end putLen

/-! ### A code file committed -/

section putCode
variable (s : State) (t : Table) (file : Vector Code t.size)

@[simp] theorem State.putCode_code_same : (s.putCode t file).code t = file := by cases t <;> rfl
theorem State.putCode_code_other {u : Table} (h : u ≠ t) : (s.putCode t file).code u = s.code u := by
  cases t <;> cases u <;> first | rfl | exact absurd rfl h
@[simp] theorem State.putCode_cv : (s.putCode t file).cv = s.cv.put true t := by cases t <;> rfl
@[simp] theorem State.putCode_len (u : Table) : (s.putCode t file).len u = s.len u := by cases t <;> cases u <;> rfl
@[simp] theorem State.putCode_count (u : Table) : (s.putCode t file).count u = s.count u := by cases t <;> cases u <;> rfl
@[simp] theorem State.putCode_llLen : (s.putCode t file).llLen = s.llLen := by cases t <;> rfl
@[simp] theorem State.putCode_dLen : (s.putCode t file).dLen = s.dLen := by cases t <;> rfl
@[simp] theorem State.putCode_clLen : (s.putCode t file).clLen = s.clLen := by cases t <;> rfl
@[simp] theorem State.putCode_nlit : (s.putCode t file).nlit = s.nlit := by cases t <;> rfl
@[simp] theorem State.putCode_ndist : (s.putCode t file).ndist = s.ndist := by cases t <;> rfl
@[simp] theorem State.putCode_phase : (s.putCode t file).phase = s.phase := by cases t <;> rfl
@[simp] theorem State.putCode_finalFlag : (s.putCode t file).finalFlag = s.finalFlag := by cases t <;> rfl
@[simp] theorem State.putCode_sink : (s.putCode t file).sink = s.sink := by cases t <;> rfl
@[simp] theorem State.putCode_err : (s.putCode t file).err = s.err := by cases t <;> rfl
@[simp] theorem State.putCode_errcmd : (s.putCode t file).errcmd = s.errcmd := by cases t <;> rfl
@[simp] theorem State.putCode_rdata : (s.putCode t file).rdata = s.rdata := by cases t <;> rfl
@[simp] theorem State.putCode_host : (s.putCode t file).host = s.host := by cases t <;> rfl
@[simp] theorem State.putCode_cfg : (s.putCode t file).cfg = s.cfg := by cases t <;> rfl
end putCode

/-! ### The error response and reset -/

section raise
variable (s : State) (e : ErrCode) (w : Word)

@[simp] theorem raiseError_err : (raiseError s e w).err = e := rfl
@[simp] theorem raiseError_errcmd : (raiseError s e w).errcmd = w := rfl
@[simp] theorem raiseError_phase : (raiseError s e w).phase = .fault := rfl
@[simp] theorem raiseError_len (t : Table) : (raiseError s e w).len t = s.len t := by cases t <;> rfl
@[simp] theorem raiseError_code (t : Table) : (raiseError s e w).code t = s.code t := by cases t <;> rfl
@[simp] theorem raiseError_count (t : Table) : (raiseError s e w).count t = s.count t := by cases t <;> rfl
@[simp] theorem raiseError_nlit : (raiseError s e w).nlit = s.nlit := rfl
@[simp] theorem raiseError_ndist : (raiseError s e w).ndist = s.ndist := rfl
@[simp] theorem raiseError_finalFlag : (raiseError s e w).finalFlag = s.finalFlag := rfl
@[simp] theorem raiseError_cv : (raiseError s e w).cv = s.cv := rfl
@[simp] theorem raiseError_sink : (raiseError s e w).sink = s.sink := rfl
@[simp] theorem raiseError_rdata : (raiseError s e w).rdata = s.rdata := rfl
@[simp] theorem raiseError_host : (raiseError s e w).host = s.host := rfl
@[simp] theorem raiseError_cfg : (raiseError s e w).cfg = s.cfg := rfl
@[simp] theorem resetBlock_host : (resetBlock s).host = s.host := rfl
@[simp] theorem resetBlock_cfg : (resetBlock s).cfg = s.cfg := rfl
@[simp] theorem resetBlock_phase : (resetBlock s).phase = .idle := rfl
@[simp] theorem resetBlock_err : (resetBlock s).err = .none := rfl
@[simp] theorem resetBlock_errcmd : (resetBlock s).errcmd = 0 := rfl
@[simp] theorem resetBlock_sink : (resetBlock s).sink = Sink.reset := rfl
@[simp] theorem resetBlock_cv (t : Table) : (resetBlock s).cv.get t = false := by cases t <;> rfl
end raise

/-! ### The sink replaced -/

section sink
variable (s : State) (k : Sink)

@[simp] theorem State.withSink_len (t : Table) : ({ s with sink := k } : State).len t = s.len t := by cases t <;> rfl
@[simp] theorem State.withSink_code (t : Table) : ({ s with sink := k } : State).code t = s.code t := by cases t <;> rfl
@[simp] theorem State.withSink_count (t : Table) : ({ s with sink := k } : State).count t = s.count t := by cases t <;> rfl
@[simp] theorem State.withRdata_len (r : Word) (t : Table) : ({ s with rdata := r } : State).len t = s.len t := by cases t <;> rfl
@[simp] theorem State.withRdata_code (r : Word) (t : Table) : ({ s with rdata := r } : State).code t = s.code t := by cases t <;> rfl
@[simp] theorem State.withRdata_count (r : Word) (t : Table) : ({ s with rdata := r } : State).count t = s.count t := by cases t <;> rfl
@[simp] theorem State.withHost_len (h : List HostEvent) (t : Table) : ({ s with host := h } : State).len t = s.len t := by cases t <;> rfl
@[simp] theorem State.withHost_code (h : List HostEvent) (t : Table) : ({ s with host := h } : State).code t = s.code t := by cases t <;> rfl
@[simp] theorem State.withHost_count (h : List HostEvent) (t : Table) : ({ s with host := h } : State).count t = s.count t := by cases t <;> rfl
end sink

end Sys2Proof.Machine
end

