-- ==== Sys2Proof/Laws/Codes.lean ====
section
/-! SUPPORT. The parts of `BuildCodes`: the entries it reads, the cases it answers, and its result as a list (R105 to R110). -/

namespace Sys2Proof.Machine

/-- The entries that belong to a table, by index (R21 to R23). -/
theorem usedLengths_eq_map {size : Nat} (lens : Vector Byte size) (n : Nat) :
    usedLengths lens n = (List.range n).map fun j => (regAt lens j).toNat := by
  apply List.ext_getElem?
  intro j
  simp only [usedLengths, List.getElem?_map, List.getElem?_take]
  by_cases hj : j < n
  · by_cases hs : j < size
    · simp [hj, hs, List.getElem?_append, regAt_eq_getElem]
    · have h1 : j - size < n - size := by omega
      simp [hj, hs, h1, List.getElem?_append, regAt_past_end lens (Nat.le_of_not_lt hs)]
  · simp [hj]

@[simp] theorem length_usedLengths {size : Nat} (lens : Vector Byte size) (n : Nat) :
    (usedLengths lens n).length = n := by
  simp [usedLengths_eq_map]

@[simp] theorem length_assignCodes (ls : List Nat) (next : List (BitVec 16)) :
    (assignCodes ls next).length = ls.length := by
  induction ls generalizing next with
  | nil => rfl
  | cons L ls ih => by_cases h : L = 0 <;> simp [assignCodes, h, ih]

/-- The code register file from its first entries: 0 past them (R110). -/
theorem regAt_codeFile {size : Nat} (codes : List Code) {j : Nat} (h : j < size) :
    regAt (codeFile size codes) j = codes.getD j 0 := by
  rw [regAt_eq_getElem _ h]
  simp only [codeFile, Vector.getElem_mk, List.getElem_toArray, List.getElem_take, List.getElem_append]
  split
  · simp [List.getD, *]
  · rename_i hj
    simp [List.getD, Nat.le_of_not_lt hj]

/-- The three answers of `BuildCodes` (R105, R106). -/
theorem buildCodes_cases {size : Nat} (kraft : Bool) (lens : Vector Byte size) (n maxlen : Nat) :
    ((∃ j < n, maxlen < (regAt lens j).toNat) ∧ buildCodes kraft lens n maxlen = .error .invalidLengthTable) ∨
    ((∀ j < n, (regAt lens j).toNat ≤ maxlen) ∧ kraft = true ∧
      kraftSum (usedLengths lens n) ≠ 0 ∧ kraftSum (usedLengths lens n) ≠ 2 ^ 15 ∧
      buildCodes kraft lens n maxlen = .error .incompleteCodeTable) ∨
    ((∀ j < n, (regAt lens j).toNat ≤ maxlen) ∧
      (kraft = true → kraftSum (usedLengths lens n) = 0 ∨ kraftSum (usedLengths lens n) = 2 ^ 15) ∧
      buildCodes kraft lens n maxlen =
        .ok (codeFile size (assignCodes (usedLengths lens n) (firstCodes (usedLengths lens n))))) := by
  have hany : (usedLengths lens n).any (fun l => maxlen < l) = true ↔ ∃ j < n, maxlen < (regAt lens j).toNat := by
    simp [usedLengths_eq_map]
  by_cases h : (usedLengths lens n).any (fun l => maxlen < l) = true
  · exact .inl ⟨hany.mp h, by simp only [buildCodes, h]; rfl⟩
  · have hle : ∀ j < n, (regAt lens j).toNat ≤ maxlen := fun j hj =>
      Nat.le_of_not_lt fun hl => h (hany.mpr ⟨j, hj, hl⟩)
    by_cases hk : (kraft && (kraftSum (usedLengths lens n) != 0 && kraftSum (usedLengths lens n) != 2 ^ 15)) = true
    · refine .inr (.inl ⟨hle, ?_⟩)
      have hk' := hk
      simp only [Bool.and_eq_true, bne_iff_ne] at hk'
      refine ⟨hk'.1, hk'.2.1, hk'.2.2, ?_⟩
      simp only [buildCodes, h, hk]
      rfl
    · refine .inr (.inr ⟨hle, ?_, ?_⟩)
      · intro hkr
        by_contra hn
        simp only [not_or] at hn
        exact hk (by simp only [hkr, Bool.true_and, Bool.and_eq_true, bne_iff_ne]; exact hn)
      · simp only [buildCodes, h, hk]
        rfl

/-- The Kraft sum of the entries of a table, by index (R106). -/
theorem kraftSum_usedLengths {size : Nat} (lens : Vector Byte size) (n : Nat) :
    kraftSum (usedLengths lens n) = refKraft (fun j => (regAt lens j).toNat) n := by
  simp [kraftSum, refKraft, usedLengths_eq_map, Function.comp_def]

end Sys2Proof.Machine
end

