-- ==== Sys2Proof/Laws/Decode.lean ====
section
/-! SUPPORT. The bounds of R73 as propositions; packing and unpacking the three fields of a word. -/

namespace Sys2Proof

/-! ### The bounds of R73 -/

theorem wellFormed_wrLlen (i : BitVec 16) (v : Byte) : (Instr.wrLlen i v).wellFormed = true ↔ i.toNat < 286 :=
  decide_eq_true_iff
theorem wellFormed_wrDlen (i : BitVec 16) (v : Byte) : (Instr.wrDlen i v).wellFormed = true ↔ i.toNat < 30 :=
  decide_eq_true_iff
theorem wellFormed_wrClen (i : BitVec 16) (v : Byte) : (Instr.wrClen i v).wellFormed = true ↔ i.toNat < 19 :=
  decide_eq_true_iff
theorem wellFormed_rdLen (t : Table) (i : BitVec 16) : (Instr.rdLen t i).wellFormed = true ↔ i.toNat < t.size :=
  decide_eq_true_iff
theorem wellFormed_rdCode (t : Table) (i : BitVec 16) : (Instr.rdCode t i).wellFormed = true ↔ i.toNat < t.size :=
  decide_eq_true_iff
theorem wellFormed_pushBits (v : BitVec 16) (n : Byte) :
    (Instr.pushBits v n).wellFormed = true ↔ n.toNat ≤ 16 ∧ v.toNat < 2 ^ n.toNat := by
  simp [Instr.wellFormed]

/-! ### Fields -/

/-- Bit `k` of a packed word (R70). -/
theorem getLsbD_packWord (op : Byte) (a : BitVec 16) (b : Byte) (k : Nat) :
    (packWord op a b).getLsbD k =
      if k < 8 then b.getLsbD k else if k < 24 then a.getLsbD (k - 8) else op.getLsbD (k - 24) := by
  have h1 : (packWord op a b).getLsbD k = if k < 8 then b.getLsbD k else (op ++ a).getLsbD (k - 8) := BitVec.getLsbD_append
  rw [h1, BitVec.getLsbD_append]
  split
  · rfl
  · by_cases h : k < 24
    · rw [if_pos h, if_pos (by omega)]
    · rw [if_neg h, if_neg (by omega)]; congr 1

@[simp] theorem opField_packWord (op : Byte) (a : BitVec 16) (b : Byte) : opField (packWord op a b) = op := by
  apply BitVec.eq_of_getLsbD_eq
  intro k hk
  have h : ¬ 24 + k < 8 := by omega
  simp [opField, getLsbD_packWord, hk, h]

@[simp] theorem aField_packWord (op : Byte) (a : BitVec 16) (b : Byte) : aField (packWord op a b) = a := by
  apply BitVec.eq_of_getLsbD_eq
  intro k hk
  have h : 8 + k < 24 := by omega
  simp [aField, getLsbD_packWord, hk, h]

@[simp] theorem bField_packWord (op : Byte) (a : BitVec 16) (b : Byte) : bField (packWord op a b) = b := by
  apply BitVec.eq_of_getLsbD_eq
  intro k hk
  simp [bField, getLsbD_packWord, hk]

/-- A word is its three fields (R70). -/
theorem packWord_fields (w : Word) : packWord (opField w) (aField w) (bField w) = w := by
  apply BitVec.eq_of_getLsbD_eq
  intro k hk
  rw [getLsbD_packWord]
  split
  · simp [bField, *]
  · split
    · have : k - 8 < 16 := by omega
      simp [aField, this]
      congr 1; omega
    · have : k - 24 < 8 := by omega
      simp [opField, this]
      congr 1; omega

/-- The decoder on a word given by its fields. -/
theorem decode_packWord (op : Byte) (a : BitVec 16) (b : Byte) :
    decode (packWord op a b) =
      match rowOf op a b with
      | none => .error (.reservedOpcode op)
      | some none => .error (.reservedField op)
      | some (some i) => if i.wellFormed then .ok i else .error (.reservedField op) := by
  simp only [decode, opField_packWord, aField_packWord, bField_packWord] <;> rfl

/-- `Decode(w)` succeeds only through the opcode map, with the bounds of R73 met. -/
theorem decode_ok {w : Word} {i : Instr} (h : decode w = .ok i) :
    rowOf (opField w) (aField w) (bField w) = some (some i) ∧ i.wellFormed = true := by
  unfold decode at h
  split at h
  · cases h
  · cases h
  · split at h
    · cases h
      exact ⟨by assumption, by assumption⟩
    · cases h

end Sys2Proof
end

