-- ==== Sys2Proof/Laws/Ops.lean ====
section
/-! SUPPORT. What the shared operations can do, said once: the checks around a command (R249), every command as those
checks around its effect, and the step. -/

namespace Sys2Proof.Machine

/-! ### The order of checks -/

section command
variable {i : Instr} {effect : State → Effect} {s t : State}

/-- In `FAULT` every command but the four is ignored (R250). -/
theorem command_in_fault (hp : s.phase = .fault) (hi : runsInFault i = false) : command i effect s = .next s := by
  simp [command, hp, hi]

theorem command_of_illFormed (hp : s.phase ≠ .fault) (hw : i.wellFormed = false) :
    command i effect s = .next (raiseError s .illegalCommand (encode i)) := by
  simp [command, hp, hw]

theorem command_out_of_phase (hp : s.phase ≠ .fault) (hw : i.wellFormed = true) (ha : allowedIn i s.phase = false) :
    command i effect s = .next (raiseError s .sequenceError (encode i)) := by
  simp [command, hp, hw, ha]

/-- Where the checks pass, the command has its effect, or raises what its effect raises. -/
theorem command_runs (hf : s.phase = .fault → runsInFault i = true) (hw : i.wellFormed = true)
    (ha : allowedIn i s.phase = true) :
    command i effect s = match effect s with
      | .ok t => .next t
      | .error e => .next (raiseError s e (encode i)) := by
  have h : ¬ (s.phase = .fault ∧ runsInFault i = false) := fun h => by simp [hf h.1] at h
  simp [command, h, hw, ha] <;> rfl

theorem command_ok (hf : s.phase = .fault → runsInFault i = true) (hw : i.wellFormed = true)
    (ha : allowedIn i s.phase = true) (he : effect s = .ok t) : command i effect s = .next t := by
  rw [command_runs hf hw ha, he]

theorem command_error {e : ErrCode} (hf : s.phase = .fault → runsInFault i = true) (hw : i.wellFormed = true)
    (ha : allowedIn i s.phase = true) (he : effect s = .error e) :
    command i effect s = .next (raiseError s e (encode i)) := by
  rw [command_runs hf hw ha, he]

/-- Everything a command can do: be ignored in `FAULT`, raise one of the two protocol errors, raise an error of its own,
or have its effect. -/
theorem command_cases (h : command i effect s = .next t) :
    (s.phase = .fault ∧ runsInFault i = false ∧ t = s) ∨
    (s.phase ≠ .fault ∧ i.wellFormed = false ∧ t = raiseError s .illegalCommand (encode i)) ∨
    (s.phase ≠ .fault ∧ i.wellFormed = true ∧ allowedIn i s.phase = false ∧
      t = raiseError s .sequenceError (encode i)) ∨
    (i.wellFormed = true ∧ allowedIn i s.phase = true ∧ (s.phase = .fault → runsInFault i = true) ∧
      ∃ e, effect s = .error e ∧ t = raiseError s e (encode i)) ∨
    (i.wellFormed = true ∧ allowedIn i s.phase = true ∧ (s.phase = .fault → runsInFault i = true) ∧
      effect s = .ok t) := by
  by_cases hp : s.phase = .fault ∧ runsInFault i = false
  · rw [command_in_fault hp.1 hp.2] at h
    cases h
    exact .inl ⟨hp.1, hp.2, rfl⟩
  · have hf : s.phase = .fault → runsInFault i = true := fun hs => by
      cases hr : runsInFault i
      · exact absurd ⟨hs, hr⟩ hp
      · rfl
    cases hw : i.wellFormed
    · have hs : s.phase ≠ .fault := fun hs => by
        have := hf hs
        cases i <;> simp [runsInFault, Instr.wellFormed] at this hw
      rw [command_of_illFormed hs hw] at h
      cases h
      exact .inr (.inl ⟨hs, rfl, rfl⟩)
    · cases ha : allowedIn i s.phase
      · have hs : s.phase ≠ .fault := fun hs => by
          have := hf hs
          cases i <;> simp [runsInFault, allowedIn] at this ha
        rw [command_out_of_phase hs hw ha] at h
        cases h
        exact .inr (.inr (.inl ⟨hs, rfl, rfl, rfl⟩))
      · rw [command_runs hf hw ha] at h
        cases he : effect s with
        | error e =>
          rw [he] at h
          cases h
          exact .inr (.inr (.inr (.inl ⟨rfl, rfl, hf, e, rfl, rfl⟩)))
        | ok u =>
          rw [he] at h
          cases h
          exact .inr (.inr (.inr (.inr ⟨rfl, rfl, hf, rfl⟩)))

/-- A command always answers a next state. -/
theorem command_answers (i : Instr) (effect : State → Effect) (s : State) : ∃ t, command i effect s = .next t := by
  unfold command
  split
  · exact ⟨_, rfl⟩
  · split
    · exact ⟨_, rfl⟩
    · split
      · exact ⟨_, rfl⟩
      · split <;> exact ⟨_, rfl⟩

end command

/-! ### Every command as the checks around its effect -/

/-- The effect of a command, without the checks. -/
def effectOf : Instr → State → Effect
  | .nop, s => .ok s
  | .wrLlen i v, s => writeLen .ll i v s
  | .wrDlen i v, s => writeLen .d i v s
  | .wrClen i v, s => writeLen .cl i v s
  | .setNlit n, s => setNlitEffect n s
  | .setNdist n, s => setNdistEffect n s
  | .build sel, s => buildEffect sel s
  | .rdLen t i, s => .ok { s with rdata := (regAt (s.len t) i.toNat).setWidth 32 }
  | .rdCode t i, s => .ok { s with rdata := (regAt (s.code t) i.toNat).setWidth 32 }
  | .rdStatus, s => .ok { s with rdata := s.status }
  | .rdErrcmd, s => .ok { s with rdata := s.errcmd }
  | .blockBegin f, s => blockBeginEffect f s
  | .emitLl sym, s => emitSymbol .ll sym s
  | .emitDist sym, s => emitSymbol .d sym s
  | .blockEnd, s => .ok { s with
      sink := s.sink.pushCode (regAt s.llCode eob) (regAt s.llLen eob).toNat
      phase := if s.finalFlag then .done else .idle }
  | .pushBit b, s => .ok { s with sink := s.sink.pushBit b }
  | .pushBits v n, s => .ok { s with sink := s.sink.pushBits v.toNat n.toNat }
  | .pushByte v, s => pushByteEffect v s
  | .flush, s => .ok { s with sink := s.sink.flushBits }
  | .softReset, s => .ok (resetBlock s)

theorem exec_eq_command (i : Instr) (s : State) : exec i s = command i (effectOf i) s := by
  cases i <;> rfl

/-- The commands that run in `FAULT` are well-formed and allowed everywhere, and their effect does not fail (R250). -/
theorem runsInFault_iff (i : Instr) :
    runsInFault i = true ↔ i = .nop ∨ i = .rdStatus ∨ i = .rdErrcmd ∨ i = .softReset := by
  cases i <;> simp [runsInFault]

/-! ### The step -/

theorem step_of_no_event {s : State} (h : s.host = []) : step s = .next s := by
  simp [step, stepHost, h]

theorem step_of_event {s : State} {e : HostEvent} {rest : List HostEvent} (h : s.host = e :: rest) :
    step s = performEvent e { s with host := rest } := by
  simp [step, stepHost, h]

theorem performWord_of_ok {w : Word} {i : Instr} (s : State) (h : decode w = .ok i) : performWord w s = exec i s := by
  simp [performWord, h]

theorem performWord_of_error {w : Word} {r : Illegal} (s : State) (h : decode w = .error r) :
    performWord w s = illegalWord w s := by
  simp [performWord, h]

/-- Everything a presented word can do (R248, R250). -/
theorem performWord_cases {w : Word} {s t : State} (h : performWord w s = .next t) :
    (∃ i, decode w = .ok i ∧ exec i s = .next t) ∨
    (∃ r, decode w = .error r ∧ s.phase = .fault ∧ t = s) ∨
    (∃ r, decode w = .error r ∧ s.phase ≠ .fault ∧ t = raiseError s .illegalCommand w) := by
  cases hd : decode w with
  | ok i => exact .inl ⟨i, rfl, by rwa [performWord_of_ok _ hd] at h⟩
  | error r =>
    rw [performWord_of_error _ hd] at h
    by_cases hp : s.phase = .fault
    · rw [illegalWord, if_pos hp] at h
      cases h
      exact .inr (.inl ⟨r, rfl, hp, rfl⟩)
    · rw [illegalWord, if_neg hp] at h
      cases h
      exact .inr (.inr ⟨r, rfl, hp, rfl⟩)

/-- Everything a step can do. -/
theorem step_cases {s t : State} (h : step s = .next t) :
    (s.host = [] ∧ t = s) ∨
    ∃ rest, (s.host = .reset :: rest ∧ t = resetBlock { s with host := rest }) ∨
      ∃ w, s.host = .command w :: rest ∧
        ((∃ i, decode w = .ok i ∧ exec i { s with host := rest } = .next t) ∨
        (∃ r, decode w = .error r ∧ s.phase = .fault ∧ t = { s with host := rest }) ∨
        (∃ r, decode w = .error r ∧ s.phase ≠ .fault ∧ t = raiseError { s with host := rest } .illegalCommand w)) := by
  cases hh : s.host with
  | nil =>
    rw [step_of_no_event hh] at h
    cases h
    exact .inl ⟨rfl, rfl⟩
  | cons e rest =>
    rw [step_of_event hh] at h
    refine .inr ⟨rest, ?_⟩
    cases e with
    | reset =>
      cases h
      exact .inl ⟨rfl, rfl⟩
    | command w => exact .inr ⟨w, rfl, performWord_cases h⟩

end Sys2Proof.Machine
end

