-- ==== Sys2Proof/Laws/Effects.lean ====
section
/-! SUPPORT. Everything a build, a block's begin and a command can do, said once (R111, R143, R249). -/

namespace Sys2Proof.Machine

theorem buildTable_error_ne {s : State} {t : Table} {e : ErrCode} (h : s.buildTable t = .error e) : e ≠ .none := by
  rcases buildCodes_cases s.cfg.kraftCheck (s.len t) (s.count t) (maxLen t) with ⟨-, h'⟩ | ⟨-, -, -, -, h'⟩ | ⟨-, -, h'⟩ <;>
    rw [State.buildTable, h'] at h <;> cases h <;> simp

/-- All three builds succeeded, and their codes are committed (R111). -/
theorem buildAll_ok {s t : State} (h : buildAll s = .ok t) :
    ∃ c1 c2 c3, s.buildTable .ll = .ok c1 ∧ s.buildTable .d = .ok c2 ∧ s.buildTable .cl = .ok c3 ∧
      t = ((s.putCode .ll c1).putCode .d c2).putCode .cl c3 := by
  unfold buildAll at h
  cases h1 : s.buildTable .ll with
  | error e => rw [h1] at h; cases h
  | ok c1 =>
    cases h2 : s.buildTable .d with
    | error e => rw [h1, h2] at h; cases h
    | ok c2 =>
      cases h3 : s.buildTable .cl with
      | error e => rw [h1, h2, h3] at h; cases h
      | ok c3 =>
        rw [h1, h2, h3] at h
        cases h
        exact ⟨c1, c2, c3, rfl, rfl, rfl, rfl⟩

/-- The first failing table names the error (R111, R249). -/
theorem buildAll_error {s : State} {e : ErrCode} (h : buildAll s = .error e) : ∃ t, s.buildTable t = .error e := by
  unfold buildAll at h
  cases h1 : s.buildTable .ll with
  | error e => rw [h1] at h; cases h; exact ⟨.ll, h1⟩
  | ok c1 =>
    cases h2 : s.buildTable .d with
    | error e => rw [h1, h2] at h; cases h; exact ⟨.d, h2⟩
    | ok c2 =>
      cases h3 : s.buildTable .cl with
      | error e => rw [h1, h2, h3] at h; cases h; exact ⟨.cl, h3⟩
      | ok c3 => rw [h1, h2, h3] at h; cases h

/-- A build changes code files and valid flags only (R111). -/
theorem build_ok {sel : BuildSel} {s t : State} (h : buildEffect sel s = .ok t) :
    ∃ c1 c2 c3 cv, t = { s with llCode := c1, dCode := c2, clCode := c3, cv := cv } := by
  cases sel with
  | one x =>
    simp only [buildEffect] at h
    cases h1 : s.buildTable x with
    | error e1 => rw [h1] at h; cases h
    | ok c => rw [h1] at h; cases h; cases x <;> exact ⟨_, _, _, _, rfl⟩
  | all => obtain ⟨c1, c2, c3, -, -, -, rfl⟩ := buildAll_ok h; exact ⟨_, _, _, _, rfl⟩

/-- The four answers of `BLOCK_BEGIN`, in the order of its checks (R143). -/
theorem blockBegin_cases (f : Bool) (s : State) :
    (s.nlit.toNat < 257 ∧ blockBeginEffect f s = .error .lengthTableTooShort) ∨
    (257 ≤ s.nlit.toNat ∧ ∃ e, buildAll s = .error e ∧ blockBeginEffect f s = .error e) ∨
    (257 ≤ s.nlit.toNat ∧ ∃ b, buildAll s = .ok b ∧ s.blockEncodable = false ∧
      blockBeginEffect f s = .error .symbolNotEncodable) ∨
    (257 ≤ s.nlit.toNat ∧ ∃ b, buildAll s = .ok b ∧ s.blockEncodable = true ∧
      blockBeginEffect f s = .ok { b with
        sink := b.pushVals (b.pushClLens (b.pushCounts f s.sink)), finalFlag := f, phase := .inBlock }) := by
  by_cases h : s.nlit.toNat < 257
  · exact .inl ⟨h, by simp [blockBeginEffect, h, nlitMin]; rfl⟩
  · have h' : 257 ≤ s.nlit.toNat := by omega
    cases hb : buildAll s with
    | error e => exact .inr (.inl ⟨h', e, rfl, by simp [blockBeginEffect, h, nlitMin, hb]; rfl⟩)
    | ok b =>
      cases he : s.blockEncodable
      · exact .inr (.inr (.inl ⟨h', b, rfl, rfl, by simp [blockBeginEffect, h, nlitMin, hb, he]; rfl⟩))
      · exact .inr (.inr (.inr ⟨h', b, rfl, rfl, by simp [blockBeginEffect, h, nlitMin, hb, he]⟩))

/-- The error a command raises is one of the six codes (R240). -/
theorem effect_error_ne {i : Instr} {s : State} {e : ErrCode} (h : effectOf i s = .error e) : e ≠ .none := by
  cases i with
  | setNlit n => simp only [effectOf, setNlitEffect] at h; split at h <;> cases h; simp
  | setNdist n => simp only [effectOf, setNdistEffect] at h; split at h <;> cases h; simp
  | build sel =>
    cases sel with
    | one x =>
      simp only [effectOf, buildEffect] at h
      cases h1 : s.buildTable x with
      | error e1 => rw [h1] at h; cases h; exact buildTable_error_ne h1
      | ok c => rw [h1] at h; cases h
    | all => obtain ⟨t, ht⟩ := buildAll_error h; exact buildTable_error_ne ht
  | blockBegin f =>
    change blockBeginEffect f s = _ at h
    rcases blockBegin_cases f s with ⟨-, h'⟩ | ⟨-, e', hb, h'⟩ | ⟨-, b, hb, hn, h'⟩ | ⟨-, b, hb, hn, h'⟩ <;>
      rw [h'] at h <;> cases h
    · simp
    · obtain ⟨t, ht⟩ := buildAll_error hb; exact buildTable_error_ne ht
    · simp
  | emitLl n => simp only [effectOf, emitSymbol] at h; split at h <;> cases h; simp
  | emitDist n => simp only [effectOf, emitSymbol] at h; split at h <;> cases h; simp
  | pushByte n => simp only [effectOf, pushByteEffect] at h; split at h <;> cases h; simp
  | _ => cases h

/-- Everything a command can do: be ignored in `FAULT`, raise an error outside it, or have its effect in a phase that allows
it (R249). -/
theorem exec_cases {i : Instr} {s t : State} (h : exec i s = .next t) :
    (s.phase = .fault ∧ runsInFault i = false ∧ t = s) ∨
    (s.phase ≠ .fault ∧ ∃ e, e ≠ .none ∧ t = raiseError s e (encode i)) ∨
    (allowedIn i s.phase = true ∧ (s.phase = .fault → runsInFault i = true) ∧ effectOf i s = .ok t) := by
  rw [exec_eq_command] at h
  rcases command_cases h with ⟨h1, h2, rfl⟩ | ⟨h1, -, rfl⟩ | ⟨h1, -, -, rfl⟩ | ⟨-, -, hf, e, he, rfl⟩ | ⟨-, ha, hf, he⟩
  · exact .inl ⟨h1, h2, rfl⟩
  · exact .inr (.inl ⟨h1, _, by simp, rfl⟩)
  · exact .inr (.inl ⟨h1, _, by simp, rfl⟩)
  · refine .inr (.inl ⟨fun hp => ?_, e, effect_error_ne he, rfl⟩)
    rcases (runsInFault_iff i).mp (hf hp) with rfl | rfl | rfl | rfl <;> cases he
  · exact .inr (.inr ⟨ha, hf, he⟩)

end Sys2Proof.Machine
end

