-- ==== Sys2Proof/Laws/PerInstr.lean ====
section
/-! SUPPORT. Facts about every command as syntax, one lemma per constructor: the fields of its word are its
opcode and operands (R70, R72, R78). -/


namespace Sys2Proof.Laws

/-- The three fields of a command's word. -/
def EncodedFields.Statement (i : Instr) : Prop :=
  opField (encode i) = opcode i ∧ aField (encode i) = operandA i ∧ bField (encode i) = operandB i

theorem encodedFields (i : Instr) : EncodedFields.Statement i :=
  ⟨opField_packWord _ _ _, aField_packWord _ _ _, bField_packWord _ _ _⟩

theorem EncodedFields.nop : EncodedFields.Statement .nop := encodedFields _
theorem EncodedFields.wrLlen (i : BitVec 16) (v : Byte) : EncodedFields.Statement (.wrLlen i v) := encodedFields _
theorem EncodedFields.wrDlen (i : BitVec 16) (v : Byte) : EncodedFields.Statement (.wrDlen i v) := encodedFields _
theorem EncodedFields.wrClen (i : BitVec 16) (v : Byte) : EncodedFields.Statement (.wrClen i v) := encodedFields _
theorem EncodedFields.setNlit (n : BitVec 16) : EncodedFields.Statement (.setNlit n) := encodedFields _
theorem EncodedFields.setNdist (n : BitVec 16) : EncodedFields.Statement (.setNdist n) := encodedFields _
theorem EncodedFields.build (sel : BuildSel) : EncodedFields.Statement (.build sel) := encodedFields _
theorem EncodedFields.rdLen (t : Table) (i : BitVec 16) : EncodedFields.Statement (.rdLen t i) := encodedFields _
theorem EncodedFields.rdCode (t : Table) (i : BitVec 16) : EncodedFields.Statement (.rdCode t i) := encodedFields _
theorem EncodedFields.rdStatus : EncodedFields.Statement .rdStatus := encodedFields _
theorem EncodedFields.rdErrcmd : EncodedFields.Statement .rdErrcmd := encodedFields _
theorem EncodedFields.blockBegin (f : Bool) : EncodedFields.Statement (.blockBegin f) := encodedFields _
theorem EncodedFields.emitLl (sym : BitVec 16) : EncodedFields.Statement (.emitLl sym) := encodedFields _
theorem EncodedFields.emitDist (sym : BitVec 16) : EncodedFields.Statement (.emitDist sym) := encodedFields _
theorem EncodedFields.blockEnd : EncodedFields.Statement .blockEnd := encodedFields _
theorem EncodedFields.pushBit (b : Bool) : EncodedFields.Statement (.pushBit b) := encodedFields _
theorem EncodedFields.pushBits (v : BitVec 16) (n : Byte) : EncodedFields.Statement (.pushBits v n) := encodedFields _
theorem EncodedFields.pushByte (v : Byte) : EncodedFields.Statement (.pushByte v) := encodedFields _
theorem EncodedFields.flush : EncodedFields.Statement .flush := encodedFields _
theorem EncodedFields.softReset : EncodedFields.Statement .softReset := encodedFields _

end Sys2Proof.Laws
end

