-- ==== Sys2Proof/Laws/Sink.lean ====
section
/-! SUPPORT. One bit onto the sink: the invariant of R32, the bits of the stream and their count (R52). -/

namespace Sys2Proof.Machine

theorem fieldBits_succ (v n : Nat) : fieldBits v (n + 1) = fieldBits v n ++ [v.testBit n] := by
  simp [fieldBits, List.range_succ]

theorem fieldBits_congr {v w n : Nat} (h : ∀ k < n, v.testBit k = w.testBit k) : fieldBits v n = fieldBits w n := by
  simp only [fieldBits]
  exact List.map_congr_left fun k hk => h k (List.mem_range.mp hk)

@[simp] theorem length_fieldBits (v n : Nat) : (fieldBits v n).length = n := by simp [fieldBits]

@[simp] theorem length_codeBits (c L : Nat) : (codeBits c L).length = L := by simp [codeBits]

/-- The accumulator of R52 with its new bit, as a number. -/
def orBit (k : Sink) (b : Bool) : Byte := k.acc ||| (BitVec.ofBool b).setWidth 8 <<< k.nbits.toNat

theorem testBit_orBit (k : Sink) (b : Bool) (j : Nat) :
    (orBit k b).toNat.testBit j = (k.acc.toNat.testBit j || (decide (j = k.nbits.toNat) && b)) := by
  have hn := k.nbits.isLt
  rw [← BitVec.getLsbD, ← BitVec.getLsbD, orBit, BitVec.getLsbD_or, BitVec.getLsbD_shiftLeft,
    BitVec.getLsbD_setWidth, BitVec.getLsbD_ofBool]
  congr 1
  by_cases h : j = k.nbits.toNat
  · subst h
    have : k.nbits.toNat < 8 := hn
    simp [this]
  · by_cases h2 : j < k.nbits.toNat
    · simp [h, h2]
    · have : j - k.nbits.toNat ≠ 0 := by omega
      simp [h, this]

theorem Sink.pushBit_eq (k : Sink) (b : Bool) : k.pushBit b =
    if k.nbits.toNat + 1 = 8 then { acc := 0, nbits := 0, out := k.out ++ [orBit k b] }
    else { k with acc := orBit k b, nbits := k.nbits + 1 } := rfl

theorem nbits_succ {k : Sink} (h : k.nbits.toNat + 1 ≠ 8) : (k.nbits + 1).toNat = k.nbits.toNat + 1 := by
  have := k.nbits.isLt
  rw [BitVec.toNat_add]
  simp; omega

/-- R52 keeps the invariant of R32. -/
theorem Sink.wf_pushBit {k : Sink} (hk : k.wf) (b : Bool) : (k.pushBit b).wf := by
  rw [Sink.pushBit_eq]
  split
  · simp [Sink.wf]
  · rename_i h
    rw [Sink.wf, nbits_succ h]
    apply Nat.lt_pow_two_of_testBit
    intro j hj
    change (orBit k b).toNat.testBit j = false
    rw [testBit_orBit]
    have h1 : k.acc.toNat.testBit j = false := by
      apply Nat.testBit_lt_two_pow
      exact lt_of_lt_of_le hk (Nat.pow_le_pow_right (by omega) (by omega))
    simp [h1]
    omega

/-- R52 counts one more bit. -/
theorem Sink.bitCount_pushBit (k : Sink) (b : Bool) : (k.pushBit b).bitCount = k.bitCount + 1 := by
  rw [Sink.pushBit_eq]
  split
  · simp [Sink.bitCount]; omega
  · rename_i h
    simp only [Sink.bitCount, nbits_succ h]
    omega

theorem fieldBits_orBit {k : Sink} (hk : k.wf) (b : Bool) :
    fieldBits (orBit k b).toNat (k.nbits.toNat + 1) = fieldBits k.acc.toNat k.nbits.toNat ++ [b] := by
  rw [fieldBits_succ]
  congr 1
  · apply fieldBits_congr
    intro j hj
    rw [testBit_orBit]
    simp; omega
  · rw [testBit_orBit, Nat.testBit_lt_two_pow hk]
    simp

/-- R52 appends its bit to the stream. -/
theorem Sink.bits_pushBit {k : Sink} (hk : k.wf) (b : Bool) : (k.pushBit b).bits = k.bits ++ [b] := by
  have h := fieldBits_orBit hk b
  rw [Sink.pushBit_eq]
  split
  · rename_i h8
    rw [h8] at h
    simpa [Sink.bits, fieldBits] using h
  · rename_i h8
    simp only [Sink.bits, nbits_succ h8, h, List.append_assoc]

/-- R52 only appends to `OUT`. -/
theorem Sink.out_pushBit (k : Sink) (b : Bool) : k.out <+: (k.pushBit b).out := by
  rw [Sink.pushBit_eq]
  split
  · exact List.prefix_append _ _
  · exact List.prefix_refl _

/-- Bits appended one after another (R52). -/
def Sink.pushAll (k : Sink) (bs : List Bool) : Sink := bs.foldl Sink.pushBit k

theorem Sink.pushBits_eq_pushAll (k : Sink) (v n : Nat) : k.pushBits v n = k.pushAll (fieldBits v n) := by
  simp [Sink.pushBits, Sink.pushAll, fieldBits, List.foldl_map]

theorem Sink.pushCode_eq_pushAll (k : Sink) (c : Code) (L : Nat) : k.pushCode c L = k.pushAll (codeBits c.toNat L) := by
  simp [Sink.pushCode, Sink.pushAll, codeBits, List.foldr_map, BitVec.getLsbD]

theorem Sink.pushAll_append (k : Sink) (a b : List Bool) : (k.pushAll a).pushAll b = k.pushAll (a ++ b) := by
  simp [Sink.pushAll]

theorem Sink.out_pushAll (bs : List Bool) (k : Sink) : k.out <+: (k.pushAll bs).out := by
  induction bs generalizing k with
  | nil => exact List.prefix_refl _
  | cons b bs ih => exact (Sink.out_pushBit k b).trans (ih _)

theorem Sink.length_out_eq_bitCount_div (k : Sink) : k.out.length = k.bitCount / 8 := by
  have := k.nbits.isLt
  simp only [Sink.bitCount]; omega

@[simp] theorem Sink.length_bits (k : Sink) : k.bits.length = k.bitCount := by
  simp [Sink.bits, Sink.bitCount, List.length_flatMap, Nat.mul_comm]

end Sys2Proof.Machine
end

