-- ==== Sys2Proof/Tests/Slice0.lean ====
section
/-! SUPPORT. Tests of the model. Expected values are those of spec/95_test_vectors.md (the vector's id stands with each
test) or worked out by hand from the cited rule, never the model's own answer. The witnesses for the statements'
hypotheses stand in the second half. -/

namespace Sys2Proof.Tests

open Sys2Proof.Machine

/-! ### WellFormed: an ill-formed term for each check of R73, beside the last well-formed one -/

theorem test_wf_wrLlen : (Instr.wrLlen 286 1).wellFormed = false ∧ (Instr.wrLlen 285 255).wellFormed = true := by decide
theorem test_wf_wrDlen : (Instr.wrDlen 30 1).wellFormed = false ∧ (Instr.wrDlen 29 255).wellFormed = true := by decide
theorem test_wf_wrClen : (Instr.wrClen 19 1).wellFormed = false ∧ (Instr.wrClen 18 255).wellFormed = true := by decide
theorem test_wf_rdLen : (Instr.rdLen .ll 286).wellFormed = false ∧ (Instr.rdLen .d 30).wellFormed = false ∧
    (Instr.rdLen .cl 19).wellFormed = false ∧ (Instr.rdLen .cl 18).wellFormed = true := by decide
theorem test_wf_rdCode : (Instr.rdCode .ll 286).wellFormed = false ∧ (Instr.rdCode .d 30).wellFormed = false ∧
    (Instr.rdCode .cl 19).wellFormed = false ∧ (Instr.rdCode .ll 285).wellFormed = true := by decide
theorem test_wf_pushBits_width : (Instr.pushBits 0 17).wellFormed = false ∧ (Instr.pushBits 0xFFFF 16).wellFormed = true := by
  decide
theorem test_wf_pushBits_value : (Instr.pushBits 4 2).wellFormed = false ∧ (Instr.pushBits 1 0).wellFormed = false ∧
    (Instr.pushBits 3 2).wellFormed = true ∧ (Instr.pushBits 0 0).wellFormed = true := by decide

/-! ### Decode: a word of every command, its three fields written out from R70 to R73 (OP, A, B) -/

theorem test_decode_nop : decode 0b00000000_0000000000000000_00000000 = .ok .nop := by decide
theorem test_decode_wrLlen : decode 0b00000001_0000000100000000_00001001 = .ok (.wrLlen 256 9) := by decide
theorem test_decode_wrDlen : decode 0b00000010_0000000000011101_00001111 = .ok (.wrDlen 29 15) := by decide
theorem test_decode_wrClen : decode 0b00000011_0000000000001000_00000100 = .ok (.wrClen 8 4) := by decide
theorem test_decode_setNlit : decode 0b00000100_0000000100011110_00000000 = .ok (.setNlit 286) := by decide
theorem test_decode_setNdist : decode 0b00000101_0000000000011110_00000000 = .ok (.setNdist 30) := by decide
theorem test_decode_build : decode 0b00000110_0000000000000000_00000000 = .ok (.build (.one .ll)) ∧
    decode 0b00000110_0000000000000000_00000001 = .ok (.build (.one .d)) ∧
    decode 0b00000110_0000000000000000_00000010 = .ok (.build (.one .cl)) ∧
    decode 0b00000110_0000000000000000_00000011 = .ok (.build .all) := by decide
theorem test_decode_rdLen : decode 0b00000111_0000000100011101_00000000 = .ok (.rdLen .ll 285) ∧
    decode 0b00000111_0000000000011101_00000001 = .ok (.rdLen .d 29) ∧
    decode 0b00000111_0000000000010010_00000010 = .ok (.rdLen .cl 18) := by decide
theorem test_decode_rdCode : decode 0b00001000_0000000100000000_00000000 = .ok (.rdCode .ll 256) ∧
    decode 0b00001000_0000000000010010_00000010 = .ok (.rdCode .cl 18) := by decide
theorem test_decode_rdStatus : decode 0b00001001_0000000000000000_00000000 = .ok .rdStatus := by decide
theorem test_decode_rdErrcmd : decode 0b00001010_0000000000000000_00000000 = .ok .rdErrcmd := by decide
theorem test_decode_blockBegin : decode 0b00010000_0000000000000000_00000001 = .ok (.blockBegin true) ∧
    decode 0b00010000_0000000000000000_00000000 = .ok (.blockBegin false) := by decide
theorem test_decode_emitLl : decode 0b00010001_1111111111111111_00000000 = .ok (.emitLl 65535) := by decide
theorem test_decode_emitDist : decode 0b00010010_0000000000000010_00000000 = .ok (.emitDist 2) := by decide
theorem test_decode_blockEnd : decode 0b00010011_0000000000000000_00000000 = .ok .blockEnd := by decide
theorem test_decode_pushBit : decode 0b00100000_0000000000000000_00000001 = .ok (.pushBit true) := by decide
theorem test_decode_pushBits : decode 0b00100001_0000000000000101_00000011 = .ok (.pushBits 5 3) ∧
    decode 0b00100001_1111111111111111_00010000 = .ok (.pushBits 0xFFFF 16) := by decide
theorem test_decode_pushByte : decode 0b00100010_0000000000000000_11111111 = .ok (.pushByte 255) := by decide
theorem test_decode_flush : decode 0b00100011_0000000000000000_00000000 = .ok .flush := by decide
theorem test_decode_softReset : decode 0b00110000_0000000000000000_00000000 = .ok .softReset := by decide

/-- Reserved opcodes (R74), each by name; 0x0B, 0x14 and 0xFF are V-C2, the decode vectors and V-C10. -/
theorem test_decode_reserved_opcode : [(0x0B000000 : Word), 0x0F000000, 0x14000000, 0x1F000000, 0x24000000,
    0x2F000000, 0x31000000, 0xFFFFFFFF].all (fun w => decode w = .error (.reservedOpcode (opField w))) = true := by decide +kernel

/-- One broken field for each row of R73 (V-C3, V-B20, V-B18, V-P6, V-P7 and the decode vectors among them). -/
theorem test_decode_reserved_field : [(0x00000100 : Word), 0x00000001, 0x01011E01, 0x02001E01, 0x03001301, 0x04011E01,
    0x05000201, 0x06000004, 0x06000100, 0x07011E00, 0x07001E01, 0x07001302, 0x07000003, 0x08011E00, 0x08000003, 0x09000001,
    0x0A000100, 0x10000002, 0x10000100, 0x11006101, 0x12000001, 0x13000001, 0x20000002, 0x20000100, 0x21000402, 0x21000011,
    0x22010000, 0x23000001, 0x30000100].all (fun w => decode w = .error (.reservedField (opField w))) = true := by decide +kernel

theorem test_decodeTableWord : decodeTableWord 32 0x04011E00 = some (.setNlit 286) ∧
    decodeTableWord 32 0x0B000000 = none := by decide

/-! ### One step of each command -/

/-- `p` holds of the next state `o` answers. -/
def nextIs (o : Host.Outcome State Fault Refusal) (p : State → Bool) : Bool :=
  match o with
  | .next t => p t
  | .fault _ => false
  | .refused _ => false

/-- The step that performs `w` in `s`. -/
def performs (s : State) (w : Nat) (p : State → Bool) : Bool := nextIs (step (s.withFetchWord 32 w)) p

/-- What V-S1's end state holds for the tests below: an open final block with codes for 97, 256 and distance symbol 0 (codes
by V-B3 and program P3), `NBITS` = 6 and `ACC` = 0x02. -/
def opened : State := { State.reset with
  nlit := 286, ndist := 2, phase := .inBlock, finalFlag := true, cv := ⟨true, true, true⟩
  llLen := ((Vector.replicate 286 0).set 97 8).set 256 9, llCode := ((Vector.replicate 286 0).set 97 97).set 256 482
  dLen := ((Vector.replicate 30 0).set 0 1).set 1 1, dCode := (Vector.replicate 30 0).set 1 1
  sink := { acc := 0x02, nbits := 6, out := [] } }

/-- V-C2's end state. -/
def faulted : State := { State.reset with phase := .fault, err := .illegalCommand, errcmd := 0x0B000000 }

/-- After a final block (V-S16), at bit 7 with `ACC` = 0x23. -/
def finished : State := { State.reset with
  phase := .done, finalFlag := true, cv := ⟨true, true, true⟩, sink := { acc := 0x23, nbits := 7, out := [] } }

/-- The tables of V-S2 before its `BLOCK_BEGIN`. -/
def minimal : State := { State.reset with
  nlit := 257, llLen := ((Vector.replicate 286 0).set 0 1).set 256 1, clLen := ((Vector.replicate 19 0).set 0 1).set 1 1 }

/-- The distance table of V-B1 (R107 to R109). -/
def tableB1 : State := { State.reset with
  ndist := 8, dLen := (Vector.replicate 30 0).zipIdx.map fun p => [3, 3, 3, 3, 3, 2, 4, 4].getD p.2 0 }

-- V-C3, and NOP itself (R210)
theorem test_nop : performs finished 0x00000000 (fun t => t.status = 0x2300073E && t.sink.out == []) = true := by decide
theorem test_nop_illegal : performs State.reset 0x00000100 (fun t => t.status = 0x00060003) = true := by decide
-- V-B16: the write clears its flag alone
theorem test_wrLlen_clears_cv : performs finished 0x01000008 (fun t =>
    t.cv = ⟨false, true, true⟩ && regAt t.llLen 0 == 8) = true := by decide +kernel
-- V-S19
theorem test_wrLlen_locked : performs opened 0x01000008 (fun t => t.status = 0x0205063F && regAt t.llLen 0 == 0) = true := by
  decide +kernel
-- V-B19
theorem test_wrDlen : performs State.reset 0x02000101 (fun t => regAt t.dLen 1 == 1 && regAt t.dLen 0 == 0) = true := by
  decide +kernel
theorem test_wrClen : performs State.reset 0x03000804 (fun t => regAt t.clLen 8 == 4 && regAt t.clLen 7 == 0) = true := by
  decide +kernel
-- V-B13
theorem test_setNlit_287 : performs State.reset 0x04011F00 (fun t =>
    t.status = 0x00010003 && t.errcmd = 0x04011F00 && t.nlit = 0) = true := by decide
theorem test_setNdist_31 : performs State.reset 0x05001F00 (fun t => t.status = 0x00010003) = true := by decide
-- V-B1
theorem test_build_d : performs tableB1 0x06000001 (fun t => t.status = 0x00000010 &&
    (List.range 9).map (fun j => (regAt t.dCode j).toNat) == [2, 3, 4, 5, 6, 0, 14, 15, 0]) = true := by decide +kernel
-- V-B6: one code of one bit is incomplete
theorem test_build_incomplete : performs { State.reset with ndist := 1, dLen := (Vector.replicate 30 0).set 0 1 } 0x06000001
    (fun t => t.status = 0x00030003 && t.errcmd = 0x06000001 && t.dCode = State.reset.dCode) = true := by decide +kernel
-- V-B17
theorem test_rdLen : performs opened 0x07010000 (fun t => t.rdata = 0x00000009) = true := by decide +kernel
-- V-B3's read-back: code 482
theorem test_rdCode : performs opened 0x08010000 (fun t => t.rdata = 0x000001E2) = true := by decide +kernel
-- V-C7's status word
theorem test_rdStatus : performs { opened with phase := .fault, err := .illegalCommand } 0x09000000
    (fun t => t.rdata = 0x0206063F) = true := by decide
-- V-C5: a malformed read is ignored in FAULT
theorem test_rdStatus_ignored : performs faulted 0x09000001 (fun t => t.rdata = 0 && t.err = .illegalCommand) = true := by decide +kernel
theorem test_rdErrcmd : performs faulted 0x0A000000 (fun t => t.rdata = 0x0B000000) = true := by decide
-- V-S2
theorem test_blockBegin : performs minimal 0x10000001 (fun t => t.status = 0x0400043D &&
    t.sink.out == [0x05, 0xE0, 0x01, 0x04, 0, 0, 0, 0, 0x10, 0x04] ++ List.replicate 31 0) = true := by decide +kernel
-- V-S3
theorem test_blockBegin_too_short : performs { State.reset with nlit := 256 } 0x10000000
    (fun t => t.status = 0x00040003 && t.errcmd = 0x10000000 && t.sink.out == []) = true := by decide
-- V-S12
theorem test_emitLl : performs opened 0x11006100 (fun t => t.status = 0x2100063D && t.sink.out == [0x82]) = true := by
  decide +kernel
-- V-S14
theorem test_emitLl_out_of_table : performs opened 0x11FFFF00 (fun t =>
    t.status = 0x0202063F && t.errcmd = 0x11FFFF00) = true := by decide +kernel
-- P3: one bit, 1 for distance symbol 1 (R148)
theorem test_emitDist : performs opened 0x12000100 (fun t => t.sink = { acc := 0x42, nbits := 7, out := [] }) = true := by
  decide +kernel
-- V-S15: NDIST = 0
theorem test_emitDist_absent : performs { opened with ndist := 0 } 0x12000000 (fun t =>
    t.status = 0x0202063F) = true := by decide +kernel
-- V-S16 and V-S18
theorem test_blockEnd_final : performs opened 0x13000000 (fun t => t.status = 0x2300073E && t.sink.out == [0xC2]) = true := by
  decide +kernel
theorem test_blockEnd_nonfinal : performs { opened with finalFlag := false } 0x13000000
    (fun t => t.status = 0x23000738) = true := by decide +kernel
-- V-P1
theorem test_pushBit : performs State.reset 0x20000001 (fun t => t.status = 0x01000100) = true := by decide
-- V-P5 and V-P2
theorem test_pushBits_16 : performs State.reset 0x21ABCD10 (fun t => t.sink = { acc := 0, nbits := 0, out := [0xCD, 0xAB] }) =
    true := by decide
theorem test_pushBits_carries : performs opened 0x21000503 (fun t => t.sink = { acc := 1, nbits := 1, out := [0x42] }) =
    true := by decide
-- V-P11's first byte, V-P8's and V-P13's errors
theorem test_pushByte : performs State.reset 0x2200001F (fun t => t.sink = { acc := 0, nbits := 0, out := [0x1F] }) = true := by
  decide
theorem test_pushByte_off_boundary : performs finished 0x22000055 (fun t =>
    t.err = .sequenceError && t.sink = finished.sink) = true := by decide
-- V-P9 and V-S20
theorem test_flush : performs finished 0x23000000 (fun t => t.sink = { acc := 0, nbits := 0, out := [0x23] }) = true := by decide
theorem test_flush_locked : performs opened 0x23000000 (fun t => t.status = 0x0205063F && t.sink.out == []) = true := by decide
-- V-C9 (the partial bit is discarded) and V-C6
theorem test_softReset : performs finished 0x30000000 (fun t => t.status = 0 && t.sink.out == []) = true := by decide +kernel
theorem test_softReset_malformed : performs faulted 0x30000100 (fun t => t.status = 0x00060003 && t.errcmd = 0x0B000000) = true := by decide +kernel

/-! ### The assembly spelling (R78, R79) -/

theorem test_assemble : assembleLine "PUSH_BITS 0x1F, 5 ; five ones" = some [.pushBits 0x1F 5] ∧
    assembleLine "RD_CODE LL, 256" = some [.rdCode .ll 256] ∧ assembleLine "BUILD ALL" = some [.build .all] ∧
    assembleLine "WR_LLEN 286, 1" = none ∧
    assembleLine "FILL_DLEN 1..2, 4" = some [.wrDlen 1 4, .wrDlen 2 4] := by decide +kernel
-- log 18: an index past the 16-bit field is refused, alone and in a range
theorem test_assemble_no_wrap : assembleLine "WR_LLEN 65536, 8" = none ∧
    assembleLine "FILL_LLEN 65536..65537, 8" = none := by decide +kernel
-- V-P14's bytes
theorem test_pushLe32 : pushLe32 0xE8B7BE43 = [.pushByte 0x43, .pushByte 0xBE, .pushByte 0xB7, .pushByte 0xE8] := by decide
-- section 0 of the vectors: 287 commands
theorem test_placeholder : (loadPlaceholderLl.map encode).length = 287 ∧
    loadPlaceholderLl.head? = some (.setNlit 286) ∧ (loadPlaceholderLl.map encode).getLast? = some 0x01011D09 := by
  decide +kernel

/-! ### Witnesses: for each statement with hypotheses, states and operands that meet them together -/

/-- `minimal` right after its `BLOCK_BEGIN 1`, as V-S2 gives it, but for `OUT`. -/
def minimalOpen : State := { minimal with
  phase := .inBlock, finalFlag := true, cv := ⟨true, true, true⟩
  llCode := (Vector.replicate 286 0).set 256 1, clCode := (Vector.replicate 19 0).set 1 1
  sink := { acc := 0x04, nbits := 4, out := [] } }

/-- A next state that `nextIs` saw. -/
theorem exists_next {o : Host.Outcome State Fault Refusal} {p : State → Bool} (h : nextIs o p = true) :
    ∃ t, o = .next t ∧ p t = true := by
  cases o with
  | next t => exact ⟨t, rfl, h⟩
  | fault r => cases h
  | refused r => cases h

/-- Codes that a successful build answers. -/
theorem exists_codes {size : Nat} {r : Except ErrCode (Vector Code size)} (h : r.isOk = true) : ∃ c, r = .ok c := by
  cases r with
  | ok c => exact ⟨c, rfl⟩
  | error e => cases h

/-- `s` with `e` as the host's one event. -/
def waitingFor (s : State) (e : HostEvent) : State := { s with host := [e] }

/-- The clauses of `CommandRule` met: `a'`, `b'` illegal in phase `p₁`; `a`, `b` legal in `FAULT`, in a phase `p₂` outside
`phases`, and in a phase `p₃` of `phases`. -/
abbrev RuleMet (legal : Nat → Nat → Prop) (phases : List Phase) (a' b' a b : Nat) (p₁ p₂ p₃ : Phase) : Prop :=
  (¬ legal a' b' ∧ p₁ ≠ .fault) ∧ (legal a b ∧ faulted.phase = .fault) ∧ (legal a b ∧ p₂ ≠ .fault ∧ p₂ ∉ phases) ∧
    (legal a b ∧ p₃ ∈ phases)

/-- The same for a command allowed in all three phases, which no fourth refuses. -/
abbrev RuleMetEverywhere (legal : Nat → Nat → Prop) (a' b' a b : Nat) : Prop :=
  (¬ legal a' b' ∧ State.reset.phase ≠ .fault) ∧ (legal a b ∧ faulted.phase = .fault) ∧
    (legal a b ∧ opened.phase ∈ [Phase.idle, .inBlock, .done])

-- DecodeInvertsEncode, EncodeInvertsDecode
theorem witness_wellFormed : (Instr.pushBits 0xFFFF 16).wellFormed = true ∧
    decode 0x21FFFF10 = .ok (.pushBits 0xFFFF 16) := by decide
-- IllegalWordRaisesIllegalCommand
theorem witness_illegal_word : ¬ legalFields (wordFields 0x0B000000) ∧ ¬ legalFields (wordFields 0x01011E01) ∧
    State.reset.phase ≠ .fault ∧ faulted.phase = .fault := by
  refine ⟨?_, ?_, by decide, rfl⟩ <;> simp [legalFields, wordFields]
-- ResetsReachEveryRegister
theorem witness_reset_input : (waitingFor opened .reset).host = .reset :: [] ∧
    ¬ ((1 : BitVec 16).toNat = 0 ∧ (0 : Byte).toNat = 0) ∧ opened.phase ≠ .fault ∧ faulted.phase = .fault := by decide
-- StepRunsDecodedCommand
theorem witness_step_command : (waitingFor opened (.command 0x13000000)).host = .command 0x13000000 :: [] ∧
    decode 0x13000000 = .ok .blockEnd := by decide
-- StepWithoutHostEventWaits, StepTakesOneEventAndKeepsTheParameter
theorem witness_step_waits : State.reset.host = [] ∧ step State.reset = .next State.reset := ⟨rfl, rfl⟩
-- FaultIgnoresEveryOtherWord
theorem witness_fault_ignores : faulted.phase = .fault ∧ (0x01000005 : Word) ≠ 0x00000000 ∧
    (0x01000005 : Word) ≠ 0x09000000 ∧ (0x01000005 : Word) ≠ 0x0A000000 ∧ (0x01000005 : Word) ≠ 0x30000000 := by decide
-- PhaseViolationRaisesSequenceError: a refused command in each phase that refuses one, and PUSH_BYTE off a boundary
theorem witness_phase_violation : (Instr.wellFormed .blockEnd = true ∧ refusedIn State.reset.phase .blockEnd = true) ∧
    ((Instr.wrLlen 0 8).wellFormed = true ∧ refusedIn opened.phase (.wrLlen 0 8) = true) ∧
    ((Instr.blockBegin false).wellFormed = true ∧ refusedIn finished.phase (.blockBegin false) = true) ∧
    ((finished.phase = .idle ∨ finished.phase = .done) ∧ finished.sink.nbits ≠ 0) := by decide
-- ErrorsWriteOnlyTheErrorRegisters
theorem witness_error : State.reset.phase ≠ .fault ∧ performWord 0x0B000000 State.reset = .next faulted ∧
    faulted.phase = .fault := ⟨by decide, rfl, rfl⟩
-- FirstErrorIsKept, StepKeepsRegsInv
theorem witness_regsInv_faulted : faulted.RegsInv :=
  ⟨by decide, by decide, by decide, by decide, by decide, by decide⟩
theorem witness_first_error : faulted.RegsInv ∧ faulted.err ≠ .none ∧ (0x01000005 : Word) ≠ 0x30000000 ∧
    ∃ t, performWord 0x01000005 faulted = .next t := ⟨witness_regsInv_faulted, by decide, by decide, _, rfl⟩
-- OnlyResetLeavesFault: a step out of FAULT, and one that stays
theorem witness_leaves_fault : (waitingFor faulted .reset).phase = .fault ∧
    (∃ t, step (waitingFor faulted .reset) = .next t ∧ t.phase = .idle) ∧
    ∃ t, step (waitingFor faulted (.command 0x09000000)) = .next t ∧ t.phase = .fault :=
  ⟨rfl, ⟨_, rfl, rfl⟩, ⟨_, rfl, rfl⟩⟩
-- LengthWrites, CountWrites
theorem witness_lengthWrites :
    RuleMet (fun a _ => a < 286) [.idle, .done] 286 0 285 255 .idle .inBlock .done ∧
    RuleMet (fun a _ => a < 30) [.idle, .done] 30 0 29 255 .idle .inBlock .done ∧
    RuleMet (fun a _ => a < 19) [.idle, .done] 19 0 18 255 .idle .inBlock .done ∧ (1 : Nat) ≠ (285 : BitVec 16).toNat := by
  decide
theorem witness_countWrites : RuleMet (fun _ b => b = 0) [.idle, .done] 0 1 286 0 .inBlock .inBlock .idle ∧
    286 < (287 : BitVec 16).toNat ∧ (286 : BitVec 16).toNat ≤ 286 ∧ 30 < (31 : BitVec 16).toNat ∧
    (30 : BitVec 16).toNat ≤ 30 := by decide
-- BuildOneTable, BuildAllTables: a table that builds (V-B1) and the two errors (V-B6, V-B9)
theorem witness_build_fields (x : Table) :
    RuleMet (fun a b => a = 0 ∧ b ≤ 3) [.idle, .done] 0 4 0 (selNumber x).toNat .idle .inBlock .idle := by
  cases x <;> decide
theorem witness_tableError : tableB1.tableError .d = none ∧
    State.tableError { State.reset with ndist := 1, dLen := (Vector.replicate 30 0).set 0 1 } .d = some .incompleteCodeTable ∧
    State.tableError { State.reset with ndist := 1, dLen := (Vector.replicate 30 0).set 0 16 } .d = some .invalidLengthTable ∧
    tableB1.buildError = none ∧
    State.buildError { State.reset with clLen := (Vector.replicate 19 0).set 0 8 } = some .invalidLengthTable := by
  decide +kernel
-- BuildReadsOnlyTheTable: two tables that differ only outside the count (V-B12)
theorem witness_same_table : ∀ j < 2, regAt ((Vector.replicate 30 (1 : Byte)).set 2 20) j =
    regAt (Vector.replicate 30 (1 : Byte)) j := by decide
-- BuiltCodesArePrefixFree, CodeLengthCodesFitSevenBits: builds that succeed, with and without the check (V-B1, V-B8, V-B4)
theorem witness_built : (∃ c, buildCodes true tableB1.dLen 8 15 = .ok c) ∧
    (refKraft (fun j => (regAt tableB1.dLen j).toNat) 8 ≤ 2 ^ 15 ∧ regAt tableB1.dLen 0 ≠ 0 ∧ regAt tableB1.dLen 5 ≠ 0) ∧
    (∃ c, buildCodes false (Vector.replicate 30 (1 : Byte)) 3 15 = .ok c) ∧
    ∃ c, buildCodes true minimal.clLen 19 7 = .ok c :=
  ⟨exists_codes (by decide +kernel), by decide +kernel, exists_codes (by decide +kernel), exists_codes (by decide +kernel)⟩
-- ReadBacks: the last index of each table
abbrev readFields (a b : Nat) : Prop := (b = 0 ∧ a < 286) ∨ (b = 1 ∧ a < 30) ∨ (b = 2 ∧ a < 19)
theorem witness_readBacks :
    RuleMetEverywhere readFields 286 0 285 (selNumber .ll).toNat ∧ RuleMetEverywhere readFields 30 1 29 (selNumber .d).toNat ∧
    RuleMetEverywhere readFields 19 2 18 (selNumber .cl).toNat ∧
    RuleMetEverywhere readFields 0 3 0 (selNumber .ll).toNat := by
  refine ⟨?_, ?_, ?_, ?_⟩ <;> decide
-- BlockBeginEmitsTheHeader: no error (V-S2), and an error (V-S3)
theorem witness_begin_fields :
    RuleMet (fun a b => a = 0 ∧ b ≤ 1) [.idle] 0 2 0 1 .inBlock .inBlock .idle ∧
    RuleMet (fun a b => a = 0 ∧ b ≤ 1) [.idle] 1 0 0 0 .idle .done .idle ∧ minimal.phase ∈ [Phase.idle] := by decide
theorem witness_beginError : minimal.beginError = none ∧
    State.beginError { minimal with nlit := 256 } = some .lengthTableTooShort := by decide +kernel
-- BlockBeginIgnoresOldCodes, SerializerBitCounts, OnlyTheListedPhaseTransitions: the four commands complete
theorem witness_begin_next : minimal.phase = .idle ∧
    ∃ t, exec (.blockBegin true) minimal = .next t ∧ decide (t.phase = .inBlock) = true :=
  ⟨rfl, exists_next (by decide +kernel)⟩
theorem witness_emit_next : opened.phase = .inBlock ∧ (∃ t, exec (.emitLl 97) opened = .next t ∧ t.phase = .inBlock) ∧
    (∃ t, exec (.emitDist 1) opened = .next t ∧ t.phase = .inBlock) ∧ ∃ t, exec .blockEnd opened = .next t ∧ t.phase = .done :=
  ⟨rfl, ⟨_, rfl, rfl⟩, ⟨_, rfl, rfl⟩, ⟨_, rfl, rfl⟩⟩
-- EmitSymbols, BlockEndClosesTheBlock: a symbol with a code, one without, and the first outside the table
theorem witness_emit : RuleMet (fun _ b => b = 0) [.inBlock] 0 1 97 0 .idle .done .inBlock ∧ opened.phase ∈ [Phase.inBlock] ∧
    ((97 : BitVec 16).toNat < opened.nlit.toNat ∧ regAt opened.llLen (97 : BitVec 16).toNat ≠ 0) ∧
    regAt opened.llLen (98 : BitVec 16).toNat = 0 ∧ opened.nlit.toNat ≤ (286 : BitVec 16).toNat ∧
    ((1 : BitVec 16).toNat < opened.ndist.toNat ∧ regAt opened.dLen (1 : BitVec 16).toNat ≠ 0) ∧
    opened.ndist.toNat ≤ (2 : BitVec 16).toNat ∧ opened.sink.wf := by decide +kernel
theorem witness_blockEnd : RuleMet (fun a b => a = 0 ∧ b = 0) [.inBlock] 1 0 0 0 .idle .done .inBlock ∧
    opened.phase ∈ [Phase.inBlock] ∧ opened.finalFlag = true ∧
    State.finalFlag { opened with finalFlag := false } = false ∧ opened.sink.wf := by decide
-- OpenBlockCanBeClosed, StepKeepsCodesInv
theorem beginError_congr (s : State) (p : Phase) (f : Bool) (cv : CodesValid) (c1 : Vector Code 286) (c3 : Vector Code 19)
    (k : Sink) : State.beginError { s with phase := p, finalFlag := f, cv := cv, llCode := c1, clCode := c3, sink := k } =
      s.beginError := rfl
theorem tableError_of_begin {s : State} (h : s.beginError = none) (t : Table) : s.tableError t = none := by
  unfold State.beginError at h
  split at h
  · cases h
  · have := (Option.or_eq_none_iff.mp h).1
    simp only [State.buildError, Option.or_eq_none_iff] at this
    cases t
    exacts [this.1.1, this.1.2, this.2]
theorem witness_codesInv_open : minimalOpen.CodesInv ∧ minimalOpen.phase = .inBlock := by
  have hb : minimalOpen.beginError = none := (beginError_congr minimal _ _ _ _ _ _).trans witness_beginError.1
  have h : minimalOpen.hasCodesOf minimalOpen .ll ∧ minimalOpen.hasCodesOf minimalOpen .d ∧
      minimalOpen.hasCodesOf minimalOpen .cl := by
    unfold State.hasCodesOf
    decide +kernel
  refine ⟨⟨fun t _ => ⟨tableError_of_begin hb t, ?_⟩, fun _ => ⟨hb, fun t => ?_⟩⟩, rfl⟩
  · cases t
    exacts [h.1, h.2.1, h.2.2]
  · cases t <;> rfl
theorem witness_step_open : ∃ t, step (waitingFor minimalOpen (.command 0x13000000)) = .next t ∧ t.phase = .done :=
  ⟨_, rfl, rfl⟩
-- OpenBlockBodyBits: a literal, extra bits and a bit
theorem witness_body : minimalOpen.sink.wf ∧ minimalOpen.bodyBits (.emitLl 0) = some [false] ∧
    minimalOpen.bodyBits (.pushBits 5 3) = some [true, false, true] ∧
    minimalOpen.bodyBits (.pushBit true) = some [true] := by decide +kernel
-- BlockBitsAreContiguous: one literal
theorem witness_block : (minimal.phase = .idle ∧ minimal.sink.wf) ∧ minimal.beginError = none ∧
    ((0 : BitVec 16).toNat < minimal.nlit.toNat ∧ minimal.lenAt .ll (0 : BitVec 16).toNat ≠ 0) :=
  ⟨by decide, witness_beginError.1, by decide +kernel⟩
theorem witness_distance_symbol : (1 : BitVec 16).toNat < opened.ndist.toNat ∧ opened.lenAt .d (1 : BitVec 16).toNat ≠ 0 := by
  decide
-- SinkPrimitivesAppendInOrder, AppendByteIsPushBitsOfEight
theorem witness_sink : finished.sink.wf ∧ Sink.reset.wf ∧ Sink.reset.nbits = 0 := by decide
-- PushBitAndPushBits
theorem witness_pushBits : RuleMetEverywhere (fun a b => a = 0 ∧ b ≤ 1) 0 2 0 1 ∧
    RuleMetEverywhere (fun a b => b ≤ 16 ∧ a < 2 ^ b) 4 2 3 2 ∧
    RuleMetEverywhere (fun a b => b ≤ 16 ∧ a < 2 ^ b) 0 17 0xFFFF 16 ∧ opened.sink.wf := by decide
-- PushByteAppendsAtABoundary, FlushPadsWithZeros: at a boundary and off it
theorem witness_pushByte : RuleMet (fun a _ => a = 0) [.idle, .done] 1 0 0 255 .inBlock .inBlock .done ∧
    finished.phase ∈ [Phase.idle, .done] ∧ finished.sink.nbits ≠ 0 ∧ State.reset.phase ∈ [Phase.idle, .done] ∧
    State.reset.sink.nbits = 0 := by decide
theorem witness_flush : RuleMet (fun a b => a = 0 ∧ b = 0) [.idle, .done] 0 1 0 0 .inBlock .inBlock .done ∧
    finished.phase ∈ [Phase.idle, .done] ∧ finished.sink.nbits ≠ 0 ∧ finished.sink.wf ∧ State.reset.sink.nbits = 0 := by decide
-- OutOnlyGrows
theorem witness_out : Instr.flush ≠ .softReset ∧ ∃ t, exec .flush finished = .next t ∧ t.sink.out = [0x23] :=
  ⟨by decide, _, rfl, rfl⟩
-- ContainerHeaderAndTrailer
theorem witness_container : State.reset.phase = .idle ∧ State.reset.sink.nbits = 0 ∧ finished.phase = .done ∧
    finished.err = .none := by decide
-- ControlCommandsRunInEveryPhase
theorem witness_control : (0x0A : Byte) ∈ [(0x00 : Byte), 0x09, 0x0A] ∧
    ¬ ((1 : BitVec 16).toNat = 0 ∧ (0 : Byte).toNat = 0) ∧ State.reset.phase ≠ .fault ∧ faulted.phase = .fault := by decide
-- OnlyTheListedPhaseTransitions: a change of each kind, beside those of witness_begin_next and witness_emit_next
theorem witness_transition : (∃ t, exec .softReset faulted = .next t ∧ t.phase ≠ faulted.phase) ∧
    (∃ t, exec .blockEnd State.reset = .next t ∧ t.phase ≠ State.reset.phase) ∧
    ∃ t, exec .blockEnd { opened with finalFlag := false } = .next t ∧ t.phase = .idle :=
  ⟨⟨_, rfl, by decide⟩, ⟨_, rfl, by decide⟩, ⟨_, rfl, rfl⟩⟩
-- TablesAreLockedInABlock
theorem witness_locked : opened.phase = .inBlock ∧ Instr.wrLlen 0 8 ≠ .softReset ∧ (Instr.wrLlen 0 8).wellFormed = true ∧
    ∃ t, exec (.wrLlen 0 8) opened = .next t := ⟨rfl, by decide, by decide, _, rfl⟩
-- CommandsWriteOnlyTheirRow: an effect, and an error (whose three registers the premise leaves out)
theorem witness_frame : (∃ t, exec (.emitLl 97) opened = .next t) ∧ Reg.llLen ∉ writtenBy (.emitLl 97) ∧
    Reg.phase ∉ writtenBy (.emitLl 97) ∧ opened.phase ≠ .fault ∧
    (∃ t, exec (.emitLl 97) opened = .next t ∧ t.phase ≠ .fault) ∧
    ∃ t, exec (.emitLl 98) opened = .next t ∧ t.phase = .fault :=
  ⟨⟨_, rfl⟩, by decide, by decide, by decide, ⟨_, rfl, by decide⟩, ⟨_, rfl, rfl⟩⟩

end Sys2Proof.Tests
end

section
/-! SUPPORT. The model's own fields through a command and a step: the parameter `cfg` and the host's list `host`. -/

namespace Sys2Proof.Machine

/-! ### Successful effects, by command -/

theorem setNlitEffect_ok {n : BitVec 16} {s t : State} (h : setNlitEffect n s = .ok t) :
    n.toNat ≤ 286 ∧ t = { s with nlit := n.setWidth 9, cv := s.cv.put false .ll } := by
  unfold setNlitEffect at h
  split at h
  · cases h
  · rename_i hn
    cases h
    exact ⟨Nat.le_of_not_lt hn, rfl⟩

theorem setNdistEffect_ok {n : BitVec 16} {s t : State} (h : setNdistEffect n s = .ok t) :
    n.toNat ≤ 30 ∧ t = { s with ndist := n.setWidth 5, cv := s.cv.put false .d } := by
  unfold setNdistEffect at h
  split at h
  · cases h
  · rename_i hn
    cases h
    exact ⟨Nat.le_of_not_lt hn, rfl⟩

theorem pushByteEffect_ok {v : Byte} {s t : State} (h : pushByteEffect v s = .ok t) :
    s.sink.nbits = 0 ∧ t = { s with sink := s.sink.appendByte v } := by
  unfold pushByteEffect at h
  split at h
  · cases h
  · rename_i hn
    cases h
    exact ⟨not_not.mp hn, rfl⟩

theorem emitSymbol_ok {x : Table} {sym : BitVec 16} {s t : State} (h : emitSymbol x sym s = .ok t) :
    sym.toNat < s.count x ∧ regAt (s.len x) sym.toNat ≠ 0 ∧
      t = { s with sink := s.sink.pushCode (regAt (s.code x) sym.toNat) (regAt (s.len x) sym.toNat).toNat } := by
  unfold emitSymbol at h
  split at h
  · cases h
  · rename_i hn
    cases h
    obtain ⟨hcount, hlen⟩ := not_or.mp hn
    exact ⟨Nat.lt_of_not_le hcount, hlen, rfl⟩

/-- A `BLOCK_BEGIN` that succeeds passed every check of R143. -/
theorem blockBeginEffect_ok {f : Bool} {s t : State} (h : blockBeginEffect f s = .ok t) :
    257 ≤ s.nlit.toNat ∧ s.blockEncodable = true ∧ ∃ b, buildAll s = .ok b ∧
      t = { b with sink := b.pushVals (b.pushClLens (b.pushCounts f s.sink)), finalFlag := f, phase := .inBlock } := by
  rcases blockBegin_cases f s with ⟨-, h'⟩ | ⟨-, e, -, h'⟩ | ⟨-, b, -, -, h'⟩ | ⟨hn, b, hb, he, h'⟩ <;>
    rw [h'] at h <;> cases h
  exact ⟨hn, he, b, hb, rfl⟩

/-! ### The model's own fields are kept -/

/-- No effect writes the parameter or the host's list (log 1, log 4). -/
theorem effectOf_keeps_cfg_host {i : Instr} {s t : State} (h : effectOf i s = .ok t) :
    t.cfg = s.cfg ∧ t.host = s.host := by
  cases i with
  | wrLlen | wrDlen | wrClen => cases h; exact ⟨State.putLen_cfg .., State.putLen_host ..⟩
  | setNlit n => obtain ⟨-, rfl⟩ := setNlitEffect_ok h; exact ⟨rfl, rfl⟩
  | setNdist n => obtain ⟨-, rfl⟩ := setNdistEffect_ok h; exact ⟨rfl, rfl⟩
  | build sel => obtain ⟨_, _, _, _, rfl⟩ := build_ok h; exact ⟨rfl, rfl⟩
  | blockBegin f =>
    obtain ⟨-, -, b, hb, rfl⟩ := blockBeginEffect_ok h
    obtain ⟨c1, c2, c3, -, -, -, rfl⟩ := buildAll_ok hb
    exact ⟨by simp, by simp⟩
  | emitLl | emitDist => obtain ⟨-, -, rfl⟩ := emitSymbol_ok h; exact ⟨rfl, rfl⟩
  | pushByte v => obtain ⟨-, rfl⟩ := pushByteEffect_ok h; exact ⟨rfl, rfl⟩
  | softReset => cases h; exact ⟨resetBlock_cfg s, resetBlock_host s⟩
  | nop | rdLen | rdCode | rdStatus | rdErrcmd | blockEnd | pushBit | pushBits | flush => cases h; exact ⟨rfl, rfl⟩

/-- Ignored, raising an error or having its effect, a command keeps the parameter and the host's list. -/
theorem exec_keeps_cfg_host {i : Instr} {s t : State} (h : exec i s = .next t) : t.cfg = s.cfg ∧ t.host = s.host := by
  rcases exec_cases h with ⟨-, -, rfl⟩ | ⟨-, e, -, rfl⟩ | ⟨-, -, he⟩
  · exact ⟨rfl, rfl⟩
  · exact ⟨raiseError_cfg .., raiseError_host ..⟩
  · exact effectOf_keeps_cfg_host he

theorem performWord_keeps_cfg_host {w : Word} {s t : State} (h : performWord w s = .next t) :
    t.cfg = s.cfg ∧ t.host = s.host := by
  rcases performWord_cases h with ⟨i, -, hi⟩ | ⟨r, -, -, rfl⟩ | ⟨r, -, -, rfl⟩
  · exact exec_keeps_cfg_host hi
  · exact ⟨rfl, rfl⟩
  · exact ⟨raiseError_cfg .., raiseError_host ..⟩

theorem performEvent_keeps_cfg_host {e : HostEvent} {s t : State} (h : performEvent e s = .next t) :
    t.cfg = s.cfg ∧ t.host = s.host := by
  cases e with
  | command w => exact performWord_keeps_cfg_host h
  | reset => cases h; exact ⟨resetBlock_cfg s, resetBlock_host s⟩

/-! ### The statements -/

/-- Settles O10: the event leaves the list before it is performed, and performing it keeps both fields. -/
theorem stepTakesOneEventAndKeepsTheParameter : Obligations.StepTakesOneEventAndKeepsTheParameter := by
  intro s t h
  cases hs : s.host with
  | nil =>
    rw [step_of_no_event hs] at h
    cases h
    exact ⟨rfl, hs⟩
  | cons e rest =>
    rw [step_of_event hs] at h
    exact performEvent_keeps_cfg_host h

/-- Settles O8: a step performs the event taken off the list, and a word that decodes is performed by `exec`. -/
theorem stepRunsDecodedCommand : Obligations.StepRunsDecodedCommand := by
  intro s w rest hs
  have hstep : step s = performWord w { s with host := rest } := step_of_event hs
  exact ⟨fun i hi => hstep.trans (performWord_of_ok _ hi), hstep⟩

end Sys2Proof.Machine
end

section
/-! SUPPORT. What the commands write (R42): how they move the sink on, and the registers outside their row. -/

namespace Sys2Proof.Machine

/-! ### Bits appended one after another -/

theorem Sink.wf_pushAll (bs : List Bool) {k : Sink} (hk : k.wf) : (k.pushAll bs).wf := by
  induction bs generalizing k with
  | nil => exact hk
  | cons b bs ih => exact ih (Sink.wf_pushBit hk b)

theorem Sink.foldl_pushAll {α : Type} (bitsOf : α → List Bool) (xs : List α) (k : Sink) :
    xs.foldl (fun k x => k.pushAll (bitsOf x)) k = k.pushAll (xs.flatMap bitsOf) := by
  induction xs generalizing k with
  | nil => rfl
  | cons x xs ih => rw [List.foldl_cons, ih, Sink.pushAll_append, List.flatMap_cons]

theorem State.pushCounts_eq_pushAll (s : State) (f : Bool) (k : Sink) :
    s.pushCounts f k = k.pushAll (fieldBits f.toNat 1 ++ fieldBits btypeDyn 2 ++ fieldBits s.hlit 5 ++
      fieldBits s.hdist 5 ++ fieldBits (ncl - 4) 4) := by
  simp only [State.pushCounts, Sink.pushBits_eq_pushAll, Sink.pushAll_append, List.append_assoc]

theorem State.pushClLens_eq_pushAll (s : State) (k : Sink) :
    s.pushClLens k = k.pushAll (perm.flatMap fun p => fieldBits (regAt s.clLen p).toNat 3) := by
  simp only [State.pushClLens, Sink.pushBits_eq_pushAll, Sink.foldl_pushAll]

theorem State.pushVals_eq_pushAll (s : State) (k : Sink) :
    s.pushVals k =
      k.pushAll (s.vals.flatMap fun v => codeBits (regAt s.clCode v).toNat (regAt s.clLen v).toNat) := by
  simp only [State.pushVals, Sink.pushCode_eq_pushAll, Sink.foldl_pushAll]

/-! ### The sink after a command -/

/-- The three ways a command moves the sink on: bits appended (none is no change), a whole byte, or a flush (R52 to R56). -/
def Sink.Advances (k k' : Sink) : Prop :=
  (∃ bs, k' = k.pushAll bs) ∨ (∃ v, k' = k.appendByte v) ∨ k' = k.flushBits

theorem Sink.Advances.refl (k : Sink) : k.Advances k := .inl ⟨[], rfl⟩

/-- The invariant of R32 survives every way the sink moves on. -/
theorem Sink.Advances.wf {k k' : Sink} (h : k.Advances k') (hk : k.wf) : k'.wf := by
  rcases h with ⟨bs, rfl⟩ | ⟨v, rfl⟩ | rfl
  · exact Sink.wf_pushAll bs hk
  · exact hk
  · unfold Sink.flushBits
    split
    · exact Nat.one_pos
    · exact hk

/-- No way the sink moves on takes back a delivered byte (R36). -/
theorem Sink.Advances.out_grows {k k' : Sink} (h : k.Advances k') : k.out <+: k'.out := by
  rcases h with ⟨bs, rfl⟩ | ⟨v, rfl⟩ | rfl
  · exact Sink.out_pushAll bs k
  · exact List.prefix_append _ _
  · unfold Sink.flushBits
    split
    · exact List.prefix_append _ _
    · exact List.prefix_refl _

/-- The header of R143 is bits appended. -/
theorem blockBeginEffect_sink {f : Bool} {s t : State} (h : blockBeginEffect f s = .ok t) :
    ∃ bs, t.sink = s.sink.pushAll bs := by
  obtain ⟨-, -, b, -, rfl⟩ := blockBeginEffect_ok h
  exact ⟨_, by rw [State.pushVals_eq_pushAll, State.pushClLens_eq_pushAll, State.pushCounts_eq_pushAll,
    Sink.pushAll_append, Sink.pushAll_append]⟩

theorem effectOf_sink_advances {i : Instr} {s t : State} (hi : i ≠ .softReset) (h : effectOf i s = .ok t) :
    s.sink.Advances t.sink := by
  cases i with
  | softReset => exact absurd rfl hi
  | nop | rdLen | rdCode | rdStatus | rdErrcmd => cases h; exact .refl _
  | wrLlen | wrDlen | wrClen => cases h; exact .refl _
  | setNlit n => obtain ⟨-, rfl⟩ := setNlitEffect_ok h; exact .refl _
  | setNdist n => obtain ⟨-, rfl⟩ := setNdistEffect_ok h; exact .refl _
  | build sel => obtain ⟨_, _, _, _, rfl⟩ := build_ok h; exact .refl _
  | blockBegin f => exact .inl (blockBeginEffect_sink h)
  | emitLl | emitDist => obtain ⟨-, -, rfl⟩ := emitSymbol_ok h; exact .inl ⟨_, Sink.pushCode_eq_pushAll ..⟩
  | blockEnd => cases h; exact .inl ⟨_, Sink.pushCode_eq_pushAll ..⟩
  | pushBit b => cases h; exact .inl ⟨[b], rfl⟩
  | pushBits v n => cases h; exact .inl ⟨_, Sink.pushBits_eq_pushAll ..⟩
  | pushByte v => obtain ⟨-, rfl⟩ := pushByteEffect_ok h; exact .inr (.inl ⟨v, rfl⟩)
  | flush => cases h; exact .inr (.inr rfl)

/-! ### The registers outside a command's row (R42) -/

theorem State.sameIn_refl (s : State) (r : Reg) : s.sameIn s r := by cases r <;> rfl

theorem State.sameIn_withRdata (s : State) (x : Word) {r : Reg} (hr : r ≠ .rdata) :
    s.sameIn { s with rdata := x } r := by
  cases r <;> simp [State.sameIn] at hr ⊢

theorem State.sameIn_withSink (s : State) (k : Sink) {r : Reg} (hr : r ∉ [Reg.acc, .nbits, .out]) :
    s.sameIn { s with sink := k } r := by
  cases r <;> simp [State.sameIn] at hr ⊢

theorem raiseError_sameIn (s : State) (e : ErrCode) (w : Word) {r : Reg} (hr : r ∉ [Reg.phase, .err, .errcmd]) :
    s.sameIn (raiseError s e w) r := by
  cases r <;> simp [State.sameIn, raiseError] at hr ⊢

/-- An effect writes only its command's row. -/
theorem effectOf_sameIn {i : Instr} {s t : State} {r : Reg} (h : effectOf i s = .ok t) (hr : r ∉ writtenBy i) :
    s.sameIn t r := by
  cases i with
  | nop => cases h; exact s.sameIn_refl r
  | rdLen | rdCode | rdStatus | rdErrcmd => cases h; exact s.sameIn_withRdata _ (List.ne_of_not_mem_cons hr)
  | wrLlen | wrDlen | wrClen | blockEnd => cases h; cases r <;> simp [writtenBy, State.sameIn, State.putLen] at hr ⊢
  | setNlit n => obtain ⟨-, rfl⟩ := setNlitEffect_ok h; cases r <;> simp [writtenBy, State.sameIn] at hr ⊢
  | setNdist n => obtain ⟨-, rfl⟩ := setNdistEffect_ok h; cases r <;> simp [writtenBy, State.sameIn] at hr ⊢
  | build sel => obtain ⟨_, _, _, _, rfl⟩ := build_ok h; cases r <;> simp [writtenBy, State.sameIn] at hr ⊢
  | blockBegin f =>
    obtain ⟨-, -, b, hb, rfl⟩ := blockBeginEffect_ok h
    obtain ⟨c1, c2, c3, -, -, -, rfl⟩ := buildAll_ok hb
    cases r <;> simp [writtenBy, State.sameIn] at hr ⊢
  | emitLl | emitDist => obtain ⟨-, -, rfl⟩ := emitSymbol_ok h; exact s.sameIn_withSink _ hr
  | pushBit | pushBits | flush => cases h; exact s.sameIn_withSink _ hr
  | pushByte v =>
    obtain ⟨-, rfl⟩ := pushByteEffect_ok h
    cases r <;> simp [writtenBy, State.sameIn, Sink.appendByte] at hr ⊢
  | softReset => cases r <;> simp [writtenBy] at hr

/-- Settles O45: an ignored command changes nothing, a raise the three error registers, and an effect its row. -/
theorem commandsWriteOnlyTheirRow : Obligations.CommandsWriteOnlyTheirRow := by
  intro i s t r h hr herr
  rcases exec_cases h with ⟨-, -, rfl⟩ | ⟨hp, e, -, rfl⟩ | ⟨-, -, he⟩
  · exact t.sameIn_refl r
  · have hthree : ¬ (r = .phase ∨ r = .err ∨ r = .errcmd) := fun h3 => herr h3 hp rfl
    exact raiseError_sameIn s e _ (by simpa using hthree)
  · exact effectOf_sameIn he hr

/-- Settles O39: outside `SOFT_RESET` an effect only moves the sink on, and an error leaves it. -/
theorem outOnlyGrows : Obligations.OutOnlyGrows := by
  intro i s t hi h
  rcases exec_cases h with ⟨-, -, rfl⟩ | ⟨-, e, -, rfl⟩ | ⟨-, -, he⟩
  · exact List.prefix_refl _
  · exact List.prefix_refl _
  · exact (effectOf_sink_advances hi he).out_grows

end Sys2Proof.Machine
end

section
/-! SUPPORT. How an invariant goes through a step, the range invariant (R27, R28, R32, R33, R212, R214), the first error and
the numbers of the status fields. -/

namespace Sys2Proof.Machine

/-! ### Predicates that every step keeps -/

theorem exec_keeps {P : State → Prop} (hraise : ∀ s e w, P s → e ≠ .none → P (raiseError s e w))
    (heffect : ∀ i s t, P s → allowedIn i s.phase = true → effectOf i s = .ok t → P t)
    {i : Instr} {s t : State} (hs : P s) (h : exec i s = .next t) : P t := by
  rcases exec_cases h with ⟨-, -, rfl⟩ | ⟨-, e, he, rfl⟩ | ⟨ha, -, he⟩
  · exact hs
  · exact hraise _ _ _ hs he
  · exact heffect _ _ _ hs ha he

/-- An invariant is proved of the host's list, a reset, a raise and every effect; a step is made of these. -/
theorem step_keeps {P : State → Prop} (hhost : ∀ s rest, P s → P { s with host := rest })
    (hreset : ∀ s, P (resetBlock s)) (hraise : ∀ s e w, P s → e ≠ .none → P (raiseError s e w))
    (heffect : ∀ i s t, P s → allowedIn i s.phase = true → effectOf i s = .ok t → P t)
    {s t : State} (hs : P s) (h : step s = .next t) : P t := by
  rcases step_cases h with ⟨-, rfl⟩ | ⟨rest, ⟨-, rfl⟩ | ⟨w, -, ⟨i, -, hi⟩ | ⟨r, -, -, rfl⟩ | ⟨r, -, -, rfl⟩⟩⟩
  · exact hs
  · exact hreset _
  · exact exec_keeps hraise heffect (hhost s rest hs) hi
  · exact hhost s rest hs
  · exact hraise _ _ w (hhost s rest hs) (by simp)

/-! ### The range invariant -/

/-- What only `SOFT_RESET` and an error write (R33, R34). -/
theorem effectOf_keeps_error {i : Instr} {s t : State} (hi : i ≠ .softReset) (h : effectOf i s = .ok t) :
    t.err = s.err ∧ t.errcmd = s.errcmd := by
  have hrow : Reg.err ∉ writtenBy i ∧ Reg.errcmd ∉ writtenBy i := by cases i <;> simp [writtenBy] at hi ⊢
  exact ⟨effectOf_sameIn h hrow.1, effectOf_sameIn h hrow.2⟩

theorem effectOf_nlit_le {i : Instr} {s t : State} (h : effectOf i s = .ok t) (hs : s.nlit.toNat ≤ 286) :
    t.nlit.toNat ≤ 286 := by
  cases i with
  | setNlit n =>
    obtain ⟨hn, rfl⟩ := setNlitEffect_ok h
    exact (BitVec.toNat_setWidth ..).trans_le ((Nat.mod_le ..).trans hn)
  | softReset => cases h; exact Nat.zero_le _
  | _ =>
    have hkept : t.nlit = s.nlit := effectOf_sameIn (r := .nlit) h (by simp [writtenBy])
    rwa [hkept]

theorem effectOf_ndist_le {i : Instr} {s t : State} (h : effectOf i s = .ok t) (hs : s.ndist.toNat ≤ 30) :
    t.ndist.toNat ≤ 30 := by
  cases i with
  | setNdist n =>
    obtain ⟨hn, rfl⟩ := setNdistEffect_ok h
    exact (BitVec.toNat_setWidth ..).trans_le ((Nat.mod_le ..).trans hn)
  | softReset => cases h; exact Nat.zero_le _
  | _ =>
    have hkept : t.ndist = s.ndist := effectOf_sameIn (r := .ndist) h (by simp [writtenBy])
    rwa [hkept]

/-- What an effect does to `PHASE` and `FINAL`: keep both, open a block, or close one (R143, R149, R214). -/
theorem effectOf_phase_cases {i : Instr} {s t : State} (hi : i ≠ .softReset) (ha : allowedIn i s.phase = true)
    (h : effectOf i s = .ok t) :
    (t.phase = s.phase ∧ t.finalFlag = s.finalFlag) ∨
    (s.phase = .idle ∧ t.phase = .inBlock ∧ ∃ f, i = .blockBegin f) ∨
    (s.phase = .inBlock ∧ t.phase = (if s.finalFlag then .done else .idle) ∧ t.finalFlag = s.finalFlag ∧
      i = .blockEnd) := by
  cases i with
  | softReset => exact absurd rfl hi
  | blockBegin f =>
    obtain ⟨-, -, b, -, rfl⟩ := blockBeginEffect_ok h
    exact .inr (.inl ⟨of_decide_eq_true ha, rfl, f, rfl⟩)
  | blockEnd => cases h; exact .inr (.inr ⟨of_decide_eq_true ha, rfl, rfl, rfl⟩)
  | _ =>
    exact .inl ⟨effectOf_sameIn (r := .phase) h (by simp [writtenBy]),
      effectOf_sameIn (r := .final) h (by simp [writtenBy])⟩

theorem resetBlock_regsInv (s : State) : (resetBlock s).RegsInv where
  sink_wf := Nat.one_pos
  nlit_le := Nat.zero_le _
  ndist_le := Nat.zero_le _
  fault_iff := by simp
  errcmd_zero := fun _ => rfl
  done_final := by simp

theorem raiseError_regsInv {s : State} (hs : s.RegsInv) {e : ErrCode} (he : e ≠ .none) (w : Word) :
    (raiseError s e w).RegsInv where
  sink_wf := hs.sink_wf
  nlit_le := hs.nlit_le
  ndist_le := hs.ndist_le
  fault_iff := by simp [he]
  errcmd_zero := fun h => absurd h he
  done_final := by simp

theorem State.RegsInv.withHost {s : State} (hs : s.RegsInv) (rest : List HostEvent) :
    State.RegsInv { s with host := rest } where
  sink_wf := hs.sink_wf
  nlit_le := hs.nlit_le
  ndist_le := hs.ndist_le
  fault_iff := hs.fault_iff
  errcmd_zero := hs.errcmd_zero
  done_final := hs.done_final

/-- A phase that an effect may change leaves no error standing, so `FAULT` and `ERR` still agree. -/
theorem effectOf_keeps_regsInv {i : Instr} {s t : State} (hs : s.RegsInv) (ha : allowedIn i s.phase = true)
    (h : effectOf i s = .ok t) : t.RegsInv := by
  by_cases hi : i = .softReset
  · subst hi
    cases h
    exact resetBlock_regsInv s
  obtain ⟨herr, hcmd⟩ := effectOf_keeps_error hi h
  have hphase := effectOf_phase_cases hi ha h
  refine ⟨(effectOf_sink_advances hi h).wf hs.sink_wf, effectOf_nlit_le h hs.nlit_le,
    effectOf_ndist_le h hs.ndist_le, ?_, ?_, ?_⟩
  · have hiff := hs.fault_iff
    rw [herr]
    rcases hphase with ⟨hp, -⟩ | ⟨hp, hq, -⟩ | ⟨hp, hq, -⟩
    · rwa [hp]
    · rw [hq]; rw [hp] at hiff; simpa using hiff
    · rw [hq]; rw [hp] at hiff; cases s.finalFlag <;> simpa using hiff
  · rw [herr, hcmd]
    exact hs.errcmd_zero
  · rcases hphase with ⟨hp, hf⟩ | ⟨-, hq, -⟩ | ⟨-, hq, hf, -⟩
    · rw [hp, hf]; exact hs.done_final
    · simp [hq]
    · rw [hq, hf]; cases s.finalFlag <;> simp

/-- Settles O47: the range invariant survives the host's list, a reset, a raise and every effect. -/
theorem stepKeepsRegsInv : Obligations.StepKeepsRegsInv := fun _ _ hs h =>
  step_keeps (fun _ rest hs => hs.withHost rest) resetBlock_regsInv (fun _ _ w hs he => raiseError_regsInv hs he w)
    (fun _ _ _ hs ha he => effectOf_keeps_regsInv hs ha he) hs h

/-! ### The first error -/

theorem whenZero_eq_some {n : Nat} (field : BitVec n) (c i : Instr) :
    whenZero field c = some i ↔ field = 0 ∧ c = i := by
  simp [whenZero]

/-- `SOFT_RESET` has one row of the opcode map, with both fields zero (R72, R73). -/
theorem rowOf_softReset {op : Byte} {a : BitVec 16} {b : Byte} (h : rowOf op a b = some (some .softReset)) :
    op = 0x30 ∧ a = 0 ∧ b = 0 := by
  unfold rowOf at h
  split at h <;> simp [whenZero_eq_some, Option.bind_eq_some_iff] at h
  rename_i hop
  exact ⟨BitVec.eq_of_toNat_eq hop, h⟩

theorem decode_softReset {w : Word} (h : decode w = .ok .softReset) : w = 0x30000000 := by
  obtain ⟨hop, ha, hb⟩ := rowOf_softReset (decode_ok h).1
  rw [← packWord_fields w, hop, ha, hb]
  rfl

theorem exec_in_fault_keeps_error {i : Instr} {s t : State} (hp : s.phase = .fault) (hi : i ≠ .softReset)
    (h : exec i s = .next t) : t.err = s.err ∧ t.errcmd = s.errcmd := by
  rcases exec_cases h with ⟨-, -, rfl⟩ | ⟨hn, -⟩ | ⟨-, -, he⟩
  · exact ⟨rfl, rfl⟩
  · exact absurd hp hn
  · exact effectOf_keeps_error hi he

/-- Settles O15: a recorded error means phase `FAULT`, where no word raises another. -/
theorem firstErrorIsKept : Obligations.FirstErrorIsKept := by
  intro s t w hs herr hw h
  have hp : s.phase = .fault := hs.fault_iff.mpr herr
  rcases performWord_cases h with ⟨i, hd, hi⟩ | ⟨r, -, -, rfl⟩ | ⟨r, -, hn, -⟩
  · refine exec_in_fault_keeps_error hp (fun hi' => ?_) hi
    exact hw (decode_softReset (hi' ▸ hd))
  · exact ⟨rfl, rfl⟩
  · exact absurd hp hn

/-! ### The numbers of the status fields -/

/-- Settles O42: each number is the table's, and `ERR_OUT` compares the phase. -/
theorem statusEncodings : Obligations.StatusEncodings :=
  ⟨rfl, rfl, rfl, rfl, rfl, rfl, rfl, rfl, rfl, rfl, rfl, fun _ => decide_eq_true_iff⟩

end Sys2Proof.Machine
end

section
/-! SUPPORT. What a build that succeeds has computed: the machine's 16-bit working values and 15-bit codes are those of the
reference code on unbounded numbers (R107 to R110), and the Kraft sum bounds the codes of each length (R106, R115). -/

namespace Sys2Proof.Machine

/-! ### Symbols counted by length -/

theorem refCount_succ (len : Nat → Nat) (n L : Nat) :
    refCount len (n + 1) L = refCount len n L + if len n = L then 1 else 0 := by
  by_cases h : len n = L <;> simp [refCount, List.range_succ, h]

theorem refCount_mono (len : Nat → Nat) (L : Nat) : Monotone fun n => refCount len n L :=
  monotone_nat_of_le_succ fun n => by rw [refCount_succ]; exact Nat.le_add_right _ _

/-- A symbol is one of those of its length. -/
theorem refCount_lt_of_lt (len : Nat → Nat) {j n : Nat} (h : j < n) :
    refCount len j (len j) < refCount len n (len j) := by
  have hj : refCount len (j + 1) (len j) = refCount len j (len j) + 1 := by simp [refCount_succ]
  have hn : refCount len (j + 1) (len j) ≤ refCount len n (len j) := refCount_mono len (len j) h
  omega

theorem lengthCount_eq_refCount (len : Nat → Nat) (n : Nat) {L : Nat} (hL : L ≠ 0) :
    lengthCount ((List.range n).map len) L = refCount len n L := by
  simp [lengthCount, hL, refCount, List.count_eq_length_filter, List.filter_map, Function.comp_def,
    beq_eq_decide]

/-! ### The first code of each length (R108) -/

theorem firstCodesFrom_eq_refFirst (len : Nat → Nat) (n L k : Nat) :
    firstCodesFrom ((List.range n).map len) (BitVec.ofNat 16 (refFirst len n (L + 1))) (L + 2) k =
      (List.range' (L + 2) k).map fun l => BitVec.ofNat 16 (refFirst len n l) := by
  induction k generalizing L with
  | zero => rfl
  | succ k ih =>
    have hnext : (BitVec.ofNat 16 (refFirst len n (L + 1)) +
        BitVec.ofNat 16 (lengthCount ((List.range n).map len) (L + 1))) <<< 1 =
          BitVec.ofNat 16 (refFirst len n (L + 2)) := by
      apply BitVec.eq_of_toNat_eq
      rw [lengthCount_eq_refCount len n (Nat.succ_ne_zero L), refFirst]
      simp [Nat.shiftLeft_eq]
      omega
    rw [firstCodesFrom, List.range'_succ, List.map_cons]
    simp only [show L + 2 - 1 = L + 1 from rfl, hnext, ih]

theorem firstCodes_eq_refFirst (len : Nat → Nat) (n : Nat) :
    firstCodes ((List.range n).map len) = (List.range 16).map fun L => BitVec.ofNat 16 (refFirst len n L) := by
  rw [firstCodes, show (0 : BitVec 16) = BitVec.ofNat 16 (refFirst len n 1) from rfl,
    firstCodesFrom_eq_refFirst len n 0 14]
  rfl

/-! ### The codes in symbol order (R109, R110) -/

/-- The working values before symbol `i`: `next[L]` is the first code of length `L` plus the earlier symbols of it. -/
def NextBefore (len : Nat → Nat) (n i : Nat) (next : List (BitVec 16)) : Prop :=
  ∀ L, 1 ≤ L → L ≤ 15 → next[L]? = some (BitVec.ofNat 16 (refFirst len n L + refCount len i L))

theorem nextBefore_zero (len : Nat → Nat) (n : Nat) : NextBefore len n 0 (firstCodes ((List.range n).map len)) := by
  intro L _ hL
  have : L < 16 := by omega
  simp [firstCodes_eq_refFirst, this, refCount]

theorem NextBefore.of_unused {len : Nat → Nat} {n i : Nat} {next : List (BitVec 16)} (h : NextBefore len n i next)
    (hi : len i = 0) : NextBefore len n (i + 1) next := by
  intro L h1 hL
  have : len i ≠ L := by omega
  simp [h L h1 hL, refCount_succ, this]

theorem NextBefore.of_used {len : Nat → Nat} {n i : Nat} {next : List (BitVec 16)} (h : NextBefore len n i next) :
    NextBefore len n (i + 1) (next.modify (len i) (· + 1)) := by
  intro L h1 hL
  rw [List.getElem?_modify, h L h1 hL, refCount_succ]
  split <;> simp [← Nat.add_assoc, BitVec.ofNat_add]

theorem refCode_of_unused {len : Nat → Nat} {n j : Nat} (h : len j = 0) : refCode len n j = 0 := if_pos (.inr h)

theorem refCode_of_past_count {len : Nat → Nat} {n j : Nat} (h : n ≤ j) : refCode len n j = 0 := if_pos (.inl h)

theorem refCode_of_used {len : Nat → Nat} {n j : Nat} (hj : j < n) (h : len j ≠ 0) :
    refCode len n j = (refFirst len n (len j) + refCount len j (len j)) % 2 ^ 15 :=
  if_neg (by omega)

/-- A code register holds every reference code (R24). -/
theorem refCode_lt_two_pow_fifteen (len : Nat → Nat) (n j : Nat) : refCode len n j < 2 ^ 15 := by
  unfold refCode
  split
  · exact Nat.two_pow_pos 15
  · exact Nat.mod_lt _ (Nat.two_pow_pos 15)

/-- The low 15 bits of the working value are the code register. -/
theorem nextBefore_code {len : Nat → Nat} {n i : Nat} {next : List (BitVec 16)} (h : NextBefore len n i next)
    (hi : i < n) (h0 : len i ≠ 0) (h15 : len i ≤ 15) :
    (next.getD (len i) 0).setWidth 15 = BitVec.ofNat 15 (refCode len n i) := by
  rw [List.getD_eq_getElem?_getD, h _ (by omega) h15, refCode_of_used hi h0]
  apply BitVec.eq_of_toNat_eq
  simp

theorem assignCodes_eq_refCode {len : Nat → Nat} {n : Nat} (hlen : ∀ j < n, len j ≤ 15) (k i : Nat)
    (next : List (BitVec 16)) (hk : i + k ≤ n) (h : NextBefore len n i next) :
    assignCodes ((List.range' i k).map len) next =
      (List.range' i k).map fun j => BitVec.ofNat 15 (refCode len n j) := by
  induction k generalizing i next with
  | zero => rfl
  | succ k ih =>
    rw [List.range'_succ, List.map_cons, List.map_cons, assignCodes]
    by_cases h0 : len i = 0
    · rw [if_pos h0, ih (i + 1) next (by omega) (h.of_unused h0), refCode_of_unused h0]
      rfl
    · rw [if_neg h0, ih (i + 1) _ (by omega) h.of_used, nextBefore_code h (by omega) h0 (hlen i (by omega))]

/-! ### A build that succeeds -/

theorem buildCodes_ok {size : Nat} {kraft : Bool} {lens : Vector Byte size} {n maxlen : Nat} {codes : Vector Code size}
    (h : buildCodes kraft lens n maxlen = .ok codes) :
    (∀ j < n, (regAt lens j).toNat ≤ maxlen) ∧
    (kraft = true → refKraft (fun j => (regAt lens j).toNat) n = 0 ∨
      refKraft (fun j => (regAt lens j).toNat) n = 2 ^ 15) ∧
    codes = codeFile size (assignCodes (usedLengths lens n) (firstCodes (usedLengths lens n))) := by
  rw [← kraftSum_usedLengths]
  rcases buildCodes_cases kraft lens n maxlen with ⟨-, h'⟩ | ⟨-, -, -, -, h'⟩ | ⟨hle, hk, h'⟩ <;> rw [h'] at h <;> cases h
  exact ⟨hle, hk, rfl⟩

/-- Every code register after a build is the reference code, at every index (R109, R110). -/
theorem buildCodes_regAt {size : Nat} {kraft : Bool} {lens : Vector Byte size} {n maxlen : Nat}
    {codes : Vector Code size} (hmax : maxlen ≤ 15) (h : buildCodes kraft lens n maxlen = .ok codes) (j : Nat) :
    (regAt codes j).toNat = refCode (fun j => (regAt lens j).toNat) n j := by
  obtain ⟨hle, -, rfl⟩ := buildCodes_ok h
  by_cases hj : j < size
  · rw [regAt_codeFile _ hj, usedLengths_eq_map]
    nth_rw 1 [List.range_eq_range']
    rw [assignCodes_eq_refCode (fun i hi => (hle i hi).trans hmax) n 0 _ (by omega) (nextBefore_zero _ n)]
    by_cases hn : j < n
    · simpa [List.getD, hn] using refCode_lt_two_pow_fifteen (fun j => (regAt lens j).toNat) n j
    · simp [List.getD, hn, refCode_of_past_count (Nat.le_of_not_lt hn)]
  · have h0 : ∀ w (file : Vector (BitVec w) size), regAt file j = 0 := fun w file =>
      regAt_past_end file (Nat.le_of_not_lt hj)
    rw [h0, refCode_of_unused (by simp [h0])]
    rfl

/-- `BuildCodes(args(t))` succeeds only where the table has no error, and then gives the reference codes (R111). -/
theorem buildTable_ok {s : State} {x : Table} {codes : Vector Code x.size} (h : s.buildTable x = .ok codes) :
    s.tableError x = none ∧ ∀ j, (regAt codes j).toNat = refCode (s.lenAt x) (s.count x) j := by
  obtain ⟨hle, hkraft, -⟩ := buildCodes_ok h
  refine ⟨?_, buildCodes_regAt (by cases x <;> decide) h⟩
  have hrange : ¬ ∃ j < s.count x, maxLen x < s.lenAt x j := fun ⟨j, hj, hl⟩ => absurd (hle j hj) (Nat.not_le.mpr hl)
  rw [State.tableError, if_neg hrange, if_neg]
  rintro ⟨hk, h0, h1⟩
  exact (hkraft hk).elim h0 h1

/-! ### The Kraft sum bounds the codes of each length (R115) -/

/-- The part of the Kraft sum `K` (R106) that the symbols of length at most `L` make. -/
def kraftUpTo (len : Nat → Nat) (n L : Nat) : Nat :=
  ((List.range n).map fun j => if len j = 0 ∨ L < len j then 0 else 2 ^ (15 - len j)).sum

theorem kraftUpTo_zero (len : Nat → Nat) (n : Nat) : kraftUpTo len n 0 = 0 := by
  have h : ∀ j, len j = 0 ∨ 0 < len j := fun j => Nat.eq_zero_or_pos _
  simp [kraftUpTo, h]

theorem kraftUpTo_succ (len : Nat → Nat) (n L : Nat) :
    kraftUpTo len n (L + 1) = kraftUpTo len n L + refCount len n (L + 1) * 2 ^ (15 - (L + 1)) := by
  induction n with
  | zero => simp [kraftUpTo, refCount]
  | succ n ih =>
    simp only [kraftUpTo, List.range_succ, List.map_append, List.sum_append] at ih ⊢
    rw [ih, refCount_succ]
    by_cases h : len n = L + 1
    · simp [h]; ring
    · have : (len n = 0 ∨ L + 1 < len n) ↔ (len n = 0 ∨ L < len n) := by omega
      simp [h, this]; ring

theorem kraftUpTo_le_refKraft (len : Nat → Nat) (n L : Nat) : kraftUpTo len n L ≤ refKraft len n := by
  refine List.sum_le_sum fun j _ => ?_
  by_cases h0 : len j = 0
  · simp [h0]
  · by_cases hL : L < len j <;> simp [h0, hL]

/-- The numbers below `refFirst + refCount` at length `L`, put at the left of 15 bits, fill what the shorter codes and those
of length `L` take. -/
theorem refFirst_add_refCount_mul (len : Nat → Nat) (n : Nat) {L : Nat} (hL : L + 1 ≤ 15) :
    (refFirst len n (L + 1) + refCount len n (L + 1)) * 2 ^ (15 - (L + 1)) = kraftUpTo len n (L + 1) := by
  induction L with
  | zero => simp [kraftUpTo_succ, kraftUpTo_zero, refFirst]
  | succ L ih =>
    have hpow : 2 ^ (15 - (L + 1)) = 2 * 2 ^ (15 - (L + 1 + 1)) := by
      rw [← Nat.pow_succ']; congr 1; omega
    rw [kraftUpTo_succ, ← ih (by omega), hpow, refFirst]
    ring

theorem refFirst_add_refCount_le {len : Nat → Nat} {n L : Nat} (hk : refKraft len n ≤ 2 ^ 15) (h0 : L ≠ 0)
    (hL : L ≤ 15) : refFirst len n L + refCount len n L ≤ 2 ^ L := by
  obtain ⟨L, rfl⟩ := Nat.exists_eq_succ_of_ne_zero h0
  have hsum := (refFirst_add_refCount_mul len n hL).trans_le ((kraftUpTo_le_refKraft len n _).trans hk)
  rw [← Nat.add_sub_of_le hL, Nat.pow_add, Nat.add_sub_of_le hL] at hsum
  exact Nat.le_of_mul_le_mul_right hsum (Nat.two_pow_pos _)

/-- With `K ≤ 2^15` a used symbol's code fits its length (R115). -/
theorem refCode_lt_two_pow {len : Nat → Nat} {n j : Nat} (hk : refKraft len n ≤ 2 ^ 15) (hj : j < n) (h0 : len j ≠ 0)
    (h15 : len j ≤ 15) : refCode len n j < 2 ^ len j := by
  have hle := refFirst_add_refCount_le hk h0 h15
  have hlt := refCount_lt_of_lt len hj
  rw [refCode_of_used hj h0]
  exact (Nat.mod_le _ _).trans_lt (by omega)

/-- Settles O23: the check makes `K` 0 or `2^15`, so a used code is below `2^L` with `L ≤ 7`; an unused one is 0. -/
theorem codeLengthCodesFitSevenBits : Obligations.CodeLengthCodesFitSevenBits := by
  intro lens codes h j
  obtain ⟨hle, hkraft, -⟩ := buildCodes_ok h
  have hk : refKraft (fun j => (regAt lens j).toNat) 19 ≤ 2 ^ 15 := by
    rcases hkraft rfl with hk | hk <;> omega
  rw [buildCodes_regAt (by omega) h]
  by_cases hused : j < 19 ∧ (regAt lens j).toNat ≠ 0
  · obtain ⟨hj, h0⟩ := hused
    have h7 := hle j hj
    exact (refCode_lt_two_pow hk hj h0 (by omega)).trans_le (Nat.pow_le_pow_right Nat.two_pos h7)
  · rw [refCode, if_pos (by omega)]
    exact Nat.two_pow_pos 7

end Sys2Proof.Machine
end

section
/-! SUPPORT. The meaning of `CV` (R31) and of an open block (R143) through every command: what a table's validity rests on,
and which commands touch it. -/

namespace Sys2Proof.Machine

/-! ### What the meaning of a valid flag rests on -/

/-- R31 for one table: it has no error, and its code file was built from its present lengths and count. -/
def State.Built (s : State) (x : Table) : Prop := s.tableError x = none ∧ s.hasCodesOf s x

/-- `t` has of table `x` what `s` has: lengths, count and codes. -/
structure State.SameTable (s t : State) (x : Table) : Prop where
  len : t.len x = s.len x
  count : t.count x = s.count x
  code : t.code x = s.code x

theorem State.lenAt_congr {s t : State} {x : Table} (h : t.len x = s.len x) : t.lenAt x = s.lenAt x := by
  funext j
  rw [State.lenAt, h, State.lenAt]

theorem State.tableError_congr {s t : State} {x : Table} (hlen : t.len x = s.len x) (hcount : t.count x = s.count x)
    (hcfg : t.cfg = s.cfg) : t.tableError x = s.tableError x := by
  simp only [State.tableError, State.lenAt_congr hlen, hcount, hcfg]

theorem State.Built.congr {s t : State} {x : Table} (hs : s.Built x) (h : s.SameTable t x) (hcfg : t.cfg = s.cfg) :
    t.Built x := by
  obtain ⟨hlen, hcount, hcode⟩ := h
  obtain ⟨herr, hcodes⟩ := hs
  refine ⟨(State.tableError_congr hlen hcount hcfg).trans herr, ?_⟩
  unfold State.hasCodesOf
  rw [hcode, State.lenAt_congr hlen, hcount]
  exact hcodes

theorem State.CodesInv.built {s : State} (hs : s.CodesInv) {x : Table} (hx : s.cv.get x = true) : s.Built x :=
  hs.valid x hx

/-- A table whose code file is what `BuildCodes` answered for it in `s` (R111). -/
theorem State.built_of_buildTable {s t : State} {x : Table} {codes : Vector Code x.size}
    (h : s.buildTable x = .ok codes) (hlen : t.len x = s.len x) (hcount : t.count x = s.count x)
    (hcode : t.code x = codes) (hcfg : t.cfg = s.cfg) : t.Built x := by
  obtain ⟨herr, hcodes⟩ := buildTable_ok h
  refine ⟨(State.tableError_congr hlen hcount hcfg).trans herr, fun j _ => ?_⟩
  rw [hcode, State.lenAt_congr hlen, hcount]
  exact hcodes j

/-! ### What `BLOCK_BEGIN` checks -/

theorem State.beginError_congr {s t : State} (hlen : ∀ x, t.len x = s.len x) (hcount : ∀ x, t.count x = s.count x)
    (hcfg : t.cfg = s.cfg) : t.beginError = s.beginError := by
  have hnlit : t.nlit.toNat = s.nlit.toNat := hcount .ll
  have hndist : t.ndist.toNat = s.ndist.toNat := hcount .d
  have hbuild : t.buildError = s.buildError := by
    simp only [State.buildError, fun x => State.tableError_congr (hlen x) (hcount x) hcfg]
  have hvals : t.refVals = s.refVals := by
    simp only [State.refVals, hnlit, hndist, fun x => State.lenAt_congr (hlen x)]
  rw [State.beginError, hnlit, hbuild, hvals, State.lenAt_congr (hlen .ll), State.lenAt_congr (hlen .cl),
    State.beginError]

/-- The machine's list of transmitted values is the reference one (R142). -/
theorem State.vals_eq_refVals (s : State) : s.vals = s.refVals := by
  have hd : s.ndist = 0 ↔ s.ndist.toNat = 0 := by simp [BitVec.toNat_eq]
  simp only [State.vals, State.refVals, usedLengths_eq_map, hd]
  rfl

theorem State.regAt_len_ne_zero (s : State) (x : Table) (j : Nat) : regAt (s.len x) j ≠ 0 ↔ s.lenAt x j ≠ 0 := by
  simp [State.lenAt, BitVec.toNat_eq]

/-- The last check before the commit (R143). -/
theorem State.blockEncodable_iff (s : State) :
    s.blockEncodable = true ↔ s.lenAt .ll 256 ≠ 0 ∧ ∀ v ∈ s.refVals, s.lenAt .cl v ≠ 0 := by
  simp only [State.blockEncodable, State.vals_eq_refVals, Bool.and_eq_true, decide_eq_true_iff, List.all_eq_true]
  exact and_congr (s.regAt_len_ne_zero .ll 256) (forall₂_congr fun v _ => s.regAt_len_ne_zero .cl v)

theorem State.beginError_eq_none {s : State} (hnlit : 257 ≤ s.nlit.toNat) (hbuild : ∀ x, s.tableError x = none)
    (henc : s.blockEncodable = true) : s.beginError = none := by
  obtain ⟨heob, hvals⟩ := s.blockEncodable_iff.mp henc
  have hnone : ¬ ∃ v ∈ s.refVals, s.lenAt .cl v = 0 := fun ⟨v, hv, h0⟩ => hvals v hv h0
  simp [State.beginError, State.buildError, hbuild, Nat.not_lt.mpr hnlit, heob, hnone]

/-! ### Ways to keep the invariant -/

/-- Tables, flags and parameter kept, and no block opened. -/
theorem State.CodesInv.of_sameTables {s t : State} (hs : s.CodesInv) (h : ∀ x, s.SameTable t x) (hcfg : t.cfg = s.cfg)
    (hcv : t.cv = s.cv) (hopen : t.phase = .inBlock → s.phase = .inBlock) : t.CodesInv := by
  refine ⟨fun x hx => (hs.built (hcv ▸ hx)).congr (h x) hcfg, fun hp => ?_⟩
  obtain ⟨hbegin, hall⟩ := hs.inBlock (hopen hp)
  exact ⟨(State.beginError_congr (fun x => (h x).len) (fun x => (h x).count) hcfg).trans hbegin, hcv ▸ hall⟩

/-- One table's flag cleared outside a block, whatever became of its lengths or count (R31). -/
theorem State.CodesInv.of_cleared {s t : State} {x : Table} (hs : s.CodesInv) (hothers : ∀ y, y ≠ x → s.SameTable t y)
    (hcfg : t.cfg = s.cfg) (hcv : t.cv = s.cv.put false x) (hclosed : t.phase ≠ .inBlock) : t.CodesInv := by
  refine ⟨fun y hy => ?_, fun hp => absurd hp hclosed⟩
  have hyx : y ≠ x := fun hyx => by simp [hcv, hyx] at hy
  rw [hcv, CodesValid.get_put_other _ _ hyx] at hy
  exact (hs.built hy).congr (hothers y hyx) hcfg

/-- A command that R214 allows in `IDLE` and `DONE` only. -/
theorem ne_inBlock_of_idle_or_done {p : Phase} (h : (decide (p = .idle) || decide (p = .done)) = true) :
    p ≠ .inBlock := by
  rintro rfl
  exact absurd h (by decide)

theorem writeLen_keeps_codesInv {x : Table} {i : BitVec 16} {v : Byte} {s t : State} (hs : s.CodesInv)
    (hclosed : s.phase ≠ .inBlock) (h : writeLen x i v s = .ok t) : t.CodesInv := by
  cases h
  exact hs.of_cleared (fun y hy => ⟨State.putLen_len_other _ _ _ hy, State.putLen_count .., State.putLen_code ..⟩)
    (State.putLen_cfg ..) (State.putLen_cv ..) (by rwa [State.putLen_phase])

/-! ### Builds -/

theorem buildOne_ok {x : Table} {s t : State} (h : buildEffect (.one x) s = .ok t) :
    ∃ codes, s.buildTable x = .ok codes ∧ t = s.putCode x codes := by
  change (s.buildTable x).map (s.putCode x) = .ok t at h
  cases hb : s.buildTable x with
  | error e => rw [hb] at h; cases h
  | ok codes => rw [hb] at h; cases h; exact ⟨codes, rfl, rfl⟩

theorem buildOne_keeps_codesInv {x : Table} {s t : State} (hs : s.CodesInv) (hclosed : s.phase ≠ .inBlock)
    (h : buildEffect (.one x) s = .ok t) : t.CodesInv := by
  obtain ⟨codes, hb, rfl⟩ := buildOne_ok h
  refine ⟨fun y hy => ?_, fun hp => absurd hp (by rwa [State.putCode_phase])⟩
  by_cases hyx : y = x
  · subst hyx
    exact State.built_of_buildTable hb (State.putCode_len ..) (State.putCode_count ..) (State.putCode_code_same ..)
      (State.putCode_cfg ..)
  · rw [State.putCode_cv, CodesValid.get_put_other _ _ hyx] at hy
    exact (hs.built hy).congr ⟨State.putCode_len .., State.putCode_count .., State.putCode_code_other _ _ _ hyx⟩
      (State.putCode_cfg ..)

/-- After all three builds every table is built and valid (R111, R143). -/
theorem buildAll_built {s t : State} (h : buildAll s = .ok t) (x : Table) : t.Built x ∧ t.cv.get x = true := by
  obtain ⟨c1, c2, c3, h1, h2, h3, rfl⟩ := buildAll_ok h
  cases x with
  | ll => exact ⟨State.built_of_buildTable h1 rfl rfl rfl rfl, rfl⟩
  | d => exact ⟨State.built_of_buildTable h2 rfl rfl rfl rfl, rfl⟩
  | cl => exact ⟨State.built_of_buildTable h3 rfl rfl rfl rfl, rfl⟩

theorem buildAll_keeps {s t : State} (h : buildAll s = .ok t) :
    (∀ x, t.len x = s.len x) ∧ (∀ x, t.count x = s.count x) ∧ t.cfg = s.cfg ∧ t.phase = s.phase := by
  obtain ⟨c1, c2, c3, -, -, -, rfl⟩ := buildAll_ok h
  simp

theorem buildAll_codesInv {s t : State} (hclosed : s.phase ≠ .inBlock) (h : buildAll s = .ok t) : t.CodesInv := by
  obtain ⟨-, -, -, hphase⟩ := buildAll_keeps h
  exact ⟨fun x _ => (buildAll_built h x).1, fun hp => absurd (hphase ▸ hp) hclosed⟩

/-- `BLOCK_BEGIN` opens a block only after every check of R143. -/
theorem blockBegin_codesInv {f : Bool} {s t : State} (h : blockBeginEffect f s = .ok t) : t.CodesInv := by
  obtain ⟨hnlit, henc, b, hb, ht⟩ := blockBeginEffect_ok h
  obtain ⟨hlen, hcount, hcfg, -⟩ := buildAll_keeps hb
  have hsame : ∀ x, b.SameTable t x := fun x => by subst ht; cases x <;> exact ⟨rfl, rfl, rfl⟩
  have hcfg' : t.cfg = b.cfg := by rw [ht]
  have hcv : t.cv = b.cv := by rw [ht]
  have herr : ∀ x, s.tableError x = none := fun x =>
    (State.tableError_congr (hlen x) (hcount x) hcfg).symm.trans (buildAll_built hb x).1.1
  have hbegin : t.beginError = none :=
    calc t.beginError = b.beginError := State.beginError_congr (fun x => (hsame x).len) (fun x => (hsame x).count) hcfg'
      _ = s.beginError := State.beginError_congr hlen hcount hcfg
      _ = none := State.beginError_eq_none hnlit herr henc
  exact ⟨fun x _ => (buildAll_built hb x).1.congr (hsame x) hcfg', fun _ => ⟨hbegin, fun x => hcv ▸ (buildAll_built hb x).2⟩⟩

/-! ### Every command -/

/-- The registers that hold the tables (R21 to R28, R31). -/
def tableRegs : List Reg := [.llLen, .dLen, .clLen, .llCode, .dCode, .clCode, .nlit, .ndist, .cv]

/-- A command whose row of R42 has no table register keeps every table and flag. -/
theorem effectOf_sameTables {i : Instr} {s t : State} (hrow : ∀ r ∈ tableRegs, r ∉ writtenBy i)
    (h : effectOf i s = .ok t) : (∀ x, s.SameTable t x) ∧ t.cv = s.cv := by
  have hsame : ∀ r ∈ tableRegs, s.sameIn t r := fun r hr => effectOf_sameIn h (hrow r hr)
  simp only [tableRegs, List.forall_mem_cons, State.sameIn] at hsame
  obtain ⟨hllLen, hdLen, hclLen, hllCode, hdCode, hclCode, hnlit, hndist, hcv, -⟩ := hsame
  refine ⟨fun x => ?_, hcv⟩
  cases x with
  | ll => exact ⟨hllLen, congrArg BitVec.toNat hnlit, hllCode⟩
  | d => exact ⟨hdLen, congrArg BitVec.toNat hndist, hdCode⟩
  | cl => exact ⟨hclLen, rfl, hclCode⟩

theorem effectOf_inBlock {i : Instr} {s t : State} (hreset : i ≠ .softReset) (hbegin : ∀ f, i ≠ .blockBegin f)
    (ha : allowedIn i s.phase = true) (h : effectOf i s = .ok t) (hp : t.phase = .inBlock) : s.phase = .inBlock := by
  rcases effectOf_phase_cases hreset ha h with ⟨hq, -⟩ | ⟨-, -, f, hf⟩ | ⟨hq, -⟩
  · rw [← hq, hp]
  · exact absurd hf (hbegin f)
  · exact hq

theorem resetBlock_codesInv (s : State) : (resetBlock s).CodesInv := ⟨by simp, by simp⟩

theorem effectOf_keeps_codesInv {i : Instr} {s t : State} (hs : s.CodesInv) (ha : allowedIn i s.phase = true)
    (h : effectOf i s = .ok t) : t.CodesInv := by
  cases i with
  | wrLlen | wrDlen | wrClen => exact writeLen_keeps_codesInv hs (ne_inBlock_of_idle_or_done ha) h
  | setNlit n =>
    obtain ⟨-, rfl⟩ := setNlitEffect_ok h
    refine hs.of_cleared (x := .ll) (fun y hy => ?_) rfl rfl (ne_inBlock_of_idle_or_done ha)
    cases y with
    | ll => exact absurd rfl hy
    | d | cl => exact ⟨rfl, rfl, rfl⟩
  | setNdist n =>
    obtain ⟨-, rfl⟩ := setNdistEffect_ok h
    refine hs.of_cleared (x := .d) (fun y hy => ?_) rfl rfl (ne_inBlock_of_idle_or_done ha)
    cases y with
    | d => exact absurd rfl hy
    | ll | cl => exact ⟨rfl, rfl, rfl⟩
  | build sel =>
    cases sel with
    | one x => exact buildOne_keeps_codesInv hs (ne_inBlock_of_idle_or_done ha) h
    | all => exact buildAll_codesInv (ne_inBlock_of_idle_or_done ha) h
  | blockBegin f => exact blockBegin_codesInv h
  | softReset => cases h; exact resetBlock_codesInv s
  | _ =>
    obtain ⟨htables, hcv⟩ := effectOf_sameTables (by simp [tableRegs, writtenBy]) h
    exact hs.of_sameTables htables (effectOf_keeps_cfg_host h).1 hcv
      (effectOf_inBlock (by simp) (by simp) ha h)

theorem State.CodesInv.withHost {s : State} (hs : s.CodesInv) (rest : List HostEvent) :
    State.CodesInv { s with host := rest } :=
  hs.of_sameTables (fun _ => ⟨State.withHost_len .., State.withHost_count .., State.withHost_code ..⟩) rfl rfl id

theorem raiseError_codesInv {s : State} (hs : s.CodesInv) (e : ErrCode) (w : Word) : (raiseError s e w).CodesInv :=
  hs.of_sameTables (fun _ => ⟨raiseError_len .., raiseError_count .., raiseError_code ..⟩) rfl rfl (by simp)

/-- Settles O49: the meaning of `CV` survives the host's list, a reset, a raise and every effect. -/
theorem stepKeepsCodesInv : Obligations.StepKeepsCodesInv := fun _ _ hs h =>
  step_keeps (fun _ rest hs => hs.withHost rest) resetBlock_codesInv (fun _ e w hs _ => raiseError_codesInv hs e w)
    (fun _ _ _ hs ha he => effectOf_keeps_codesInv hs ha he) hs h

end Sys2Proof.Machine
end

section
/-! SUPPORT. The stream through the sink's primitives (R52 to R56), the container's bytes (R57, R186 to R188), and what
`BLOCK_BEGIN` does not read (R62, R152). -/

namespace Sys2Proof.Machine

/-! ### The bits of the stream (R52 to R54) -/

theorem Sink.bits_pushAll (bs : List Bool) {k : Sink} (hk : k.wf) : (k.pushAll bs).bits = k.bits ++ bs := by
  induction bs generalizing k with
  | nil => exact (List.append_nil _).symm
  | cons b bs ih =>
    have h := ih (Sink.wf_pushBit hk b)
    rw [Sink.bits_pushBit hk b, List.append_assoc] at h
    exact h

/-- Settles O34: each primitive is a list of bits appended one after another. -/
theorem sinkPrimitivesAppendInOrder : Obligations.SinkPrimitivesAppendInOrder := by
  intro k hk
  refine ⟨fun b => ⟨Sink.wf_pushBit hk b, Sink.bits_pushBit hk b⟩, fun v n => ?_, fun c L => ?_⟩
  · rw [Sink.pushBits_eq_pushAll]
    exact ⟨Sink.wf_pushAll _ hk, Sink.bits_pushAll _ hk⟩
  · rw [Sink.pushCode_eq_pushAll]
    exact ⟨Sink.wf_pushAll _ hk, Sink.bits_pushAll _ hk⟩

/-! ### A sink is known by its bits -/

theorem fieldBits_inj {v w n : Nat} (hv : v < 2 ^ n) (hw : w < 2 ^ n) (h : fieldBits v n = fieldBits w n) : v = w := by
  refine Nat.eq_of_testBit_eq fun j => ?_
  by_cases hj : j < n
  · exact List.map_inj_left.mp h j (List.mem_range.mpr hj)
  · have hpow : 2 ^ n ≤ 2 ^ j := Nat.pow_le_pow_right Nat.two_pos (Nat.le_of_not_lt hj)
    rw [Nat.testBit_lt_two_pow (hv.trans_le hpow), Nat.testBit_lt_two_pow (hw.trans_le hpow)]

/-- The bytes of a stream of whole bytes are known by its bits. -/
theorem flatMap_fieldBits_inj : ∀ {xs ys : List Byte},
    xs.flatMap (fun b => fieldBits b.toNat 8) = ys.flatMap (fun b => fieldBits b.toNat 8) → xs = ys
  | [], [], _ => rfl
  | [], y :: ys, h | y :: ys, [], h => by
    have hlen := congrArg List.length h
    simp only [List.flatMap_nil, List.flatMap_cons, List.length_append, length_fieldBits, List.length_nil] at hlen
    omega
  | x :: xs, y :: ys, h => by
    obtain ⟨hbyte, hrest⟩ := List.append_inj h (by simp)
    rw [BitVec.eq_of_toNat_eq (fieldBits_inj x.isLt y.isLt hbyte), flatMap_fieldBits_inj hrest]

/-- Under the invariant of R32 the bits appended since reset determine `ACC`, `NBITS` and `OUT`. -/
theorem Sink.eq_of_bits_eq {k k' : Sink} (hk : k.wf) (hk' : k'.wf) (h : k.bits = k'.bits) : k = k' := by
  have hcount : k.bitCount = k'.bitCount := by rw [← length_bits, h, length_bits]
  have hlen : k.out.length = k'.out.length := by rw [length_out_eq_bitCount_div, hcount, ← length_out_eq_bitCount_div]
  have hnbits : k.nbits = k'.nbits := BitVec.eq_of_toNat_eq (by simp only [bitCount] at hcount; omega)
  obtain ⟨hout, hacc⟩ := List.append_inj h (by simp [List.length_flatMap, hlen])
  rw [← hnbits] at hacc
  rw [Sink.mk.injEq]
  exact ⟨BitVec.eq_of_toNat_eq (fieldBits_inj hk (hnbits ▸ hk') hacc), hnbits, flatMap_fieldBits_inj hout⟩

/-- R56 at a byte boundary appends the byte's eight bits, bit 0 first. -/
theorem Sink.bits_appendByte {k : Sink} (h0 : k.nbits = 0) (v : Byte) :
    (k.appendByte v).bits = k.bits ++ fieldBits v.toNat 8 := by
  simp [Sink.bits, Sink.appendByte, h0, fieldBits]

/-- Settles O35: both sinks have the invariant and the same bits. -/
theorem appendByteIsPushBitsOfEight : Obligations.AppendByteIsPushBitsOfEight := by
  intro k v hk h0
  obtain ⟨-, hpush, -⟩ := sinkPrimitivesAppendInOrder k hk
  obtain ⟨hwf, hbits⟩ := hpush v.toNat 8
  exact Sink.eq_of_bits_eq hk hwf ((Sink.bits_appendByte h0 v).trans hbits.symm)

/-! ### The container's bytes (R57, R186 to R188) -/

/-- Outside `FAULT`, a command its phase allows has its effect (R249). -/
theorem exec_of_effect {i : Instr} {s t : State} (hf : s.phase ≠ .fault) (hw : i.wellFormed = true)
    (ha : allowedIn i s.phase = true) (he : effectOf i s = .ok t) : exec i s = .next t := by
  rw [exec_eq_command]
  exact command_ok (fun h => absurd h hf) hw ha he

theorem ne_fault_of_idle_or_done {p : Phase} (h : p = .idle ∨ p = .done) : p ≠ .fault := by
  rcases h with rfl | rfl <;> simp

theorem exec_pushByte {s : State} (hp : s.phase = .idle ∨ s.phase = .done) (h0 : s.sink.nbits = 0) (v : Byte) :
    exec (.pushByte v) s = .next { s with sink := s.sink.appendByte v } :=
  exec_of_effect (ne_fault_of_idle_or_done hp) rfl (by simpa [allowedIn] using hp)
    (by simp [effectOf, pushByteEffect, h0])

theorem exec_flush {s : State} (hp : s.phase = .idle ∨ s.phase = .done) :
    exec .flush s = .next { s with sink := s.sink.flushBits } :=
  exec_of_effect (ne_fault_of_idle_or_done hp) rfl (by simpa [allowedIn] using hp) rfl

theorem execAll_cons_of_next {i : Instr} {is : List Instr} {s t : State} (h : exec i s = .next t) :
    execAll (i :: is) s = execAll is t := by
  simp [execAll, h]

/-- A sequence of `PUSH_BYTE` at a byte boundary appends its bytes in order, and every byte leaves a boundary (R182). -/
theorem execAll_pushBytes (bs : List Byte) {s : State} (hp : s.phase = .idle ∨ s.phase = .done)
    (h0 : s.sink.nbits = 0) :
    execAll (bs.map .pushByte) s = .next { s with sink := { s.sink with out := s.sink.out ++ bs } } := by
  induction bs generalizing s with
  | nil => simp [execAll]
  | cons b bs ih =>
    have hrest := ih (s := { s with sink := s.sink.appendByte b }) hp h0
    rw [List.map_cons, execAll_cons_of_next (exec_pushByte hp h0 b), hrest]
    simp [Sink.appendByte]

/-- R55 leaves a byte boundary and delivers the partial byte, if there is one. -/
theorem Sink.flushBits_spec (k : Sink) :
    k.flushBits.nbits = 0 ∧ k.flushBits.out = k.out ++ (if k.nbits = 0 then [] else [k.acc]) := by
  by_cases h : k.nbits = 0
  · simp [Sink.flushBits, h]
  · rw [Sink.flushBits, if_pos h, if_neg h]
    exact ⟨rfl, rfl⟩

/-- `PUSH_LE32` pushes the four bytes of its number, the least significant first (R57, R79). -/
theorem pushLe32_eq (v : Word) : pushLe32 v = (leBytes v).map .pushByte := by
  have hbyte (k : Nat) : v.extractLsb' (8 * k) 8 = BitVec.ofNat 8 (v.toNat / 256 ^ k) := by
    rw [BitVec.extractLsb', Nat.shiftRight_eq_div_pow, Nat.pow_mul]
  simp [pushLe32, leBytes, hbyte]

theorem gzipHeader_eq (flg xfl os : Byte) (mtime : Word) :
    gzipHeader flg mtime xfl os = ([0x1F, 0x8B, 0x08, flg] ++ leBytes mtime ++ [xfl, os]).map .pushByte := by
  simp [gzipHeader, pushLe32_eq]

theorem gzipTrailer_eq (crc isize : Word) :
    gzipTrailer crc isize = .flush :: (leBytes crc ++ leBytes isize).map .pushByte := by
  simp [gzipTrailer, pushLe32_eq]

/-- Settles O40: the header is ten bytes pushed at a boundary; the trailer flushes to a boundary, then pushes eight. -/
theorem containerHeaderAndTrailer : Obligations.ContainerHeaderAndTrailer := by
  refine ⟨fun s flg xfl os mtime hp h0 => ?_, fun s crc isize hp => ?_⟩
  · rw [gzipHeader_eq, execAll_pushBytes _ (.inl hp) h0]
    simp only [List.append_assoc]
  · obtain ⟨hnbits, hout⟩ := s.sink.flushBits_spec
    have hbytes := execAll_pushBytes (leBytes crc ++ leBytes isize) (s := { s with sink := s.sink.flushBits })
      (.inr hp) hnbits
    rw [gzipTrailer_eq, execAll_cons_of_next (exec_flush (.inr hp)), hbytes]
    refine ⟨_, rfl, rfl, hnbits, ?_, fun herr => ⟨hp, hnbits, herr⟩⟩
    simp only [hout, List.append_assoc]

/-! ### What `BLOCK_BEGIN` does not read (R62, R152) -/

theorem buildAll_of_buildTable {s : State} {c1 : Vector Code Table.ll.size} {c2 : Vector Code Table.d.size}
    {c3 : Vector Code Table.cl.size}
    (h1 : s.buildTable .ll = .ok c1) (h2 : s.buildTable .d = .ok c2) (h3 : s.buildTable .cl = .ok c3) :
    buildAll s = .ok (((s.putCode .ll c1).putCode .d c2).putCode .cl c3) := by
  rw [buildAll, h1, h2, h3]
  rfl

/-- The converse of `blockBeginEffect_ok`: past every check of R143 the block opens. -/
theorem blockBeginEffect_of_checks {f : Bool} {s b : State} (hn : 257 ≤ s.nlit.toNat) (he : s.blockEncodable = true)
    (hb : buildAll s = .ok b) :
    blockBeginEffect f s = .ok { b with
      sink := b.pushVals (b.pushClLens (b.pushCounts f s.sink)), finalFlag := f, phase := .inBlock } := by
  rcases blockBegin_cases f s with ⟨hlt, -⟩ | ⟨-, e, he', -⟩ | ⟨-, b', -, hne, -⟩ | ⟨-, b', hb', -, h⟩
  · omega
  · cases hb.symm.trans he'
  · cases he.symm.trans hne
  · cases hb.symm.trans hb'
    exact h

/-- `s` with what an earlier block leaves: code registers, valid flags and `FINAL` (R62). -/
def State.withLeftovers (s : State) (c1 : Vector Code 286) (c2 : Vector Code 30) (c3 : Vector Code 19) (cv : CodesValid)
    (g : Bool) : State :=
  { s with llCode := c1, dCode := c2, clCode := c3, cv := cv, finalFlag := g }

section leftovers
variable (s : State) (c1 : Vector Code 286) (c2 : Vector Code 30) (c3 : Vector Code 19) (cv : CodesValid) (g : Bool)

/-- A build reads the lengths, the count and the parameter only (R114). -/
theorem State.withLeftovers_buildTable (x : Table) :
    (s.withLeftovers c1 c2 c3 cv g).buildTable x = s.buildTable x := by
  cases x <;> rfl

/-- The three commits write every code file and every flag, so of the leftovers `FINAL` alone survives them. -/
theorem State.withLeftovers_putCodes (k1 : Vector Code Table.ll.size) (k2 : Vector Code Table.d.size)
    (k3 : Vector Code Table.cl.size) :
    (((s.withLeftovers c1 c2 c3 cv g).putCode .ll k1).putCode .d k2).putCode .cl k3 =
      { ((s.putCode .ll k1).putCode .d k2).putCode .cl k3 with finalFlag := g } := rfl

/-- A `BLOCK_BEGIN` that succeeds overwrites `FINAL` too, and none of its checks reads a leftover. -/
theorem State.withLeftovers_blockBegin {f : Bool} {t : State} (h : blockBeginEffect f s = .ok t) :
    blockBeginEffect f (s.withLeftovers c1 c2 c3 cv g) = .ok t := by
  obtain ⟨hn, he, b, hb, rfl⟩ := blockBeginEffect_ok h
  obtain ⟨k1, k2, k3, h1, h2, h3, rfl⟩ := buildAll_ok hb
  rw [← s.withLeftovers_buildTable c1 c2 c3 cv g] at h1 h2 h3
  have hall := buildAll_of_buildTable h1 h2 h3
  rw [State.withLeftovers_putCodes] at hall
  exact (blockBeginEffect_of_checks (s := s.withLeftovers c1 c2 c3 cv g) hn he hall :)

end leftovers

/-- Settles O27: the successful effect in `s` is the effect whatever was left over, and `IDLE` allows the command. -/
theorem blockBeginIgnoresOldCodes : Obligations.BlockBeginIgnoresOldCodes := by
  intro s t f c1 c2 c3 cv g hp h ht
  change exec (.blockBegin f) (s.withLeftovers c1 c2 c3 cv g) = .next t
  have hok : blockBeginEffect f s = .ok t := by
    rcases exec_cases h with ⟨hf, -⟩ | ⟨-, e, -, rfl⟩ | ⟨-, -, he⟩
    · simp [hp] at hf
    · exact absurd rfl ht
    · exact he
  have hphase : (s.withLeftovers c1 c2 c3 cv g).phase = .idle := hp
  exact exec_of_effect (by simp [hphase]) rfl (by simp [allowedIn, hphase])
    (s.withLeftovers_blockBegin c1 c2 c3 cv g hok)

end Sys2Proof.Machine
end

section
/-! SUPPORT. The opcode map read backwards (R72, R73, R78): the row of a command's own fields is that command, a row that
answers a command has that command's fields, and a row answers a well-formed command just when the numbers are legal. -/

namespace Sys2Proof.Machine

/-! ### The selector and one-bit fields (R71, R73) -/

/-- The selector fields of R71 and `sel` of R78 are inverse to each other. -/
theorem tableOfSel_eq_some {b : Byte} {t : Table} : tableOfSel b = some t ↔ b = selOfTable t := by
  constructor
  · unfold tableOfSel
    intro h
    split_ifs at h <;> cases h <;> assumption
  · rintro rfl
    cases t <;> rfl

/-- The same for `BUILD`, whose selector may also be 3 (R71). -/
theorem buildSelOf_eq_some {b : Byte} {sel : BuildSel} : buildSelOf b = some sel ↔ b = selOfBuild sel := by
  constructor
  · unfold buildSelOf
    intro h
    split_ifs at h with hb
    · cases h; exact hb
    · obtain ⟨t, ht, rfl⟩ := Option.map_eq_some_iff.mp h
      exact tableOfSel_eq_some.mp ht
  · rintro rfl
    rcases sel with (_ | _ | _) | _ <;> rfl

/-- The same for a one-bit operand (R73). -/
theorem bitOf_eq_some {b : Byte} {f : Bool} : bitOf b = some f ↔ b = fieldOfBit f := by
  constructor
  · unfold bitOf
    intro h
    split_ifs at h <;> cases h <;> assumption
  · rintro rfl
    cases f <;> rfl

@[simp] theorem tableOfSel_selOfTable (t : Table) : tableOfSel (selOfTable t) = some t := tableOfSel_eq_some.mpr rfl
@[simp] theorem buildSelOf_selOfBuild (sel : BuildSel) : buildSelOf (selOfBuild sel) = some sel :=
  buildSelOf_eq_some.mpr rfl
@[simp] theorem bitOf_fieldOfBit (f : Bool) : bitOf (fieldOfBit f) = some f := bitOf_eq_some.mpr rfl

/-! ### The opcode map and the fields of a command (R72, R78) -/

/-- The row of a command's own fields is that command. -/
theorem rowOf_fields (i : Instr) : rowOf (opcode i) (operandA i) (operandB i) = some (some i) := by
  cases i <;> simp [rowOf, opcode, operandA, operandB, whenZero]

/-- A word made of a command's opcode and operands is its encoding (R70, R78). -/
theorem encode_eq_packWord {op : Byte} {a : BitVec 16} {b : Byte} {i : Instr} (hop : op.toNat = (opcode i).toNat)
    (ha : a = operandA i) (hb : b = operandB i) : encode i = packWord op a b := by
  rw [encode, ha, hb, BitVec.eq_of_toNat_eq hop]

/-- A row that answers a command was given that command's fields: `B` and `A` are each free, reserved or a selector. -/
theorem encode_of_rowOf {op : Byte} {a : BitVec 16} {b : Byte} {i : Instr} (h : rowOf op a b = some (some i)) :
    encode i = packWord op a b := by
  unfold rowOf at h
  split at h <;> rename_i hop <;>
    simp only [Option.some.injEq, Option.bind_eq_some_iff, Option.map_eq_some_iff, whenZero_eq_some, tableOfSel_eq_some,
      buildSelOf_eq_some, bitOf_eq_some, reduceCtorEq] at h
  case h_1 | h_10 | h_11 | h_15 | h_19 | h_20 => -- no operand
    obtain ⟨_, ⟨ha, rfl⟩, hb, rfl⟩ := h
    exact encode_eq_packWord hop ha hb
  case h_2 | h_3 | h_4 | h_17 => -- WR_LLEN, WR_DLEN, WR_CLEN, PUSH_BITS
    cases h
    exact encode_eq_packWord hop rfl rfl
  case h_5 | h_6 | h_13 | h_14 => -- SET_NLIT, SET_NDIST, EMIT_LL, EMIT_DIST
    obtain ⟨hb, rfl⟩ := h
    exact encode_eq_packWord hop rfl hb
  case h_7 | h_12 | h_16 => -- BUILD, BLOCK_BEGIN, PUSH_BIT
    obtain ⟨_, hb, ha, rfl⟩ := h
    exact encode_eq_packWord hop ha hb
  case h_8 | h_9 => -- RD_LEN, RD_CODE
    obtain ⟨_, hb, rfl⟩ := h
    exact encode_eq_packWord hop rfl hb
  case h_18 => -- PUSH_BYTE
    obtain ⟨ha, rfl⟩ := h
    exact encode_eq_packWord hop ha rfl

/-- The decoder answers what its row answers, when the bounds of R73 hold (R77). -/
theorem decode_eq_ok_iff {w : Word} {i : Instr} :
    decode w = .ok i ↔ rowOf (opField w) (aField w) (bField w) = some (some i) ∧ i.wellFormed = true := by
  refine ⟨decode_ok, fun ⟨hrow, hi⟩ => ?_⟩
  rw [decode, hrow]
  exact if_pos hi

/-! ### The rows as numbers (R72, R73) -/

/-- The three fields of a word are its quotients and remainder (R70). -/
theorem wordFields_eq (w : Word) : wordFields w = ((opField w).toNat, (aField w).toNat, (bField w).toNat) := by
  have hop : w.toNat / 2 ^ 24 % 2 ^ 8 = w.toNat / 2 ^ 24 := by omega
  simp only [wordFields, opField, aField, bField, BitVec.extractLsb'_toNat, Nat.shiftRight_eq_div_pow, hop,
    pow_zero, Nat.div_one]

/-- A one-bit operand is a number up to 1 (R73). -/
theorem exists_bitOf_iff {b : Byte} : (∃ f, bitOf b = some f) ↔ b.toNat ≤ 1 := by
  simp only [bitOf_eq_some]
  constructor
  · rintro ⟨_ | _, rfl⟩ <;> decide
  · intro h
    rcases Nat.le_one_iff_eq_zero_or_eq_one.mp h with h | h
    · exact ⟨false, BitVec.eq_of_toNat_eq h⟩
    · exact ⟨true, BitVec.eq_of_toNat_eq h⟩

/-- A table selector is 0, 1 or 2 (R71). -/
theorem exists_tableOfSel_iff {b : Byte} {p : Table → Prop} :
    (∃ t, tableOfSel b = some t ∧ p t) ↔ b.toNat = 0 ∧ p .ll ∨ b.toNat = 1 ∧ p .d ∨ b.toNat = 2 ∧ p .cl := by
  simp only [tableOfSel_eq_some]
  constructor
  · rintro ⟨_ | _ | _, rfl, hp⟩
    · exact .inl ⟨rfl, hp⟩
    · exact .inr (.inl ⟨rfl, hp⟩)
    · exact .inr (.inr ⟨rfl, hp⟩)
  · rintro (⟨hb, hp⟩ | ⟨hb, hp⟩ | ⟨hb, hp⟩)
    · exact ⟨.ll, BitVec.eq_of_toNat_eq hb, hp⟩
    · exact ⟨.d, BitVec.eq_of_toNat_eq hb, hp⟩
    · exact ⟨.cl, BitVec.eq_of_toNat_eq hb, hp⟩

/-- The selector of `BUILD` is a number up to 3 (R71). -/
theorem exists_buildSelOf_iff {b : Byte} : (∃ sel, buildSelOf b = some sel) ↔ b.toNat ≤ 3 := by
  simp only [buildSelOf_eq_some]
  constructor
  · rintro ⟨(_ | _ | _) | _, rfl⟩ <;> decide
  · intro h
    obtain h | h | h | h : b.toNat = 0 ∨ b.toNat = 1 ∨ b.toNat = 2 ∨ b.toNat = 3 := by omega
    · exact ⟨.one .ll, BitVec.eq_of_toNat_eq h⟩
    · exact ⟨.one .d, BitVec.eq_of_toNat_eq h⟩
    · exact ⟨.one .cl, BitVec.eq_of_toNat_eq h⟩
    · exact ⟨.all, BitVec.eq_of_toNat_eq h⟩

/-- A row with a table selector in `B` and an index below the table's size in `A`. -/
theorem indexRow_accepts_iff {a : BitVec 16} {b : Byte} {c : Table → Instr}
    (hc : ∀ t, (c t).wellFormed = true ↔ a.toNat < t.size) :
    (∃ i, (tableOfSel b).map c = some i ∧ i.wellFormed = true) ↔
      (b.toNat = 0 ∧ a.toNat < 286) ∨ (b.toNat = 1 ∧ a.toNat < 30) ∨ (b.toNat = 2 ∧ a.toNat < 19) := by
  calc (∃ i, (tableOfSel b).map c = some i ∧ i.wellFormed = true)
      ↔ ∃ t, tableOfSel b = some t ∧ a.toNat < t.size := by simp [Option.map_eq_some_iff, ← hc]
    _ ↔ _ := exists_tableOfSel_iff

/-- A row with a selector or a one-bit operand in `B` and nothing in `A`. -/
theorem selectorRow_accepts_iff {α : Type} {o : Option α} {a : BitVec 16} {c : α → Instr}
    (hc : ∀ x, (c x).wellFormed = true) :
    (∃ i, (o.bind fun x => whenZero a (c x)) = some i ∧ i.wellFormed = true) ↔ a.toNat = 0 ∧ ∃ x, o = some x := by
  simp only [Option.bind_eq_some_iff, whenZero_eq_some, BitVec.toNat_eq]
  constructor
  · rintro ⟨_, ⟨x, hx, ha, rfl⟩, -⟩
    exact ⟨ha, x, hx⟩
  · rintro ⟨ha, x, hx⟩
    exact ⟨c x, ⟨x, hx, ha, rfl⟩, hc x⟩

/-- Row by row, the opcode map answers a well-formed command just when the numbers are legal; the rows outside the
groups named here only have free and zero fields. -/
theorem rowOf_accepts_iff {op : Byte} {a : BitVec 16} {b : Byte} :
    (∃ i, rowOf op a b = some (some i) ∧ i.wellFormed = true) ↔ legalFields (op.toNat, a.toNat, b.toNat) := by
  unfold rowOf
  generalize op.toNat = n
  split <;> simp only [Option.some.injEq, reduceCtorEq]
  case h_7 => -- BUILD
    exact (selectorRow_accepts_iff fun _ => rfl).trans (and_congr_right' exists_buildSelOf_iff)
  case h_12 | h_16 => -- BLOCK_BEGIN, PUSH_BIT
    exact (selectorRow_accepts_iff fun _ => rfl).trans (and_congr_right' exists_bitOf_iff)
  case h_8 => -- RD_LEN
    exact indexRow_accepts_iff fun t => wellFormed_rdLen t a
  case h_9 => -- RD_CODE
    exact indexRow_accepts_iff fun t => wellFormed_rdCode t a
  case h_2 | h_3 | h_4 | h_17 => -- WR_LLEN, WR_DLEN, WR_CLEN, PUSH_BITS
    simp [legalFields, wellFormed_wrLlen, wellFormed_wrDlen, wellFormed_wrClen, wellFormed_pushBits]
  case h_21 => -- a reserved opcode
    simp only [false_and, exists_false, false_iff]
    unfold legalFields
    split <;> rename_i heq
    case h_21 => exact id
    all_goals exact absurd (congrArg Prod.fst heq) ‹_›
  all_goals
    simp [legalFields, Instr.wellFormed, whenZero_eq_some, BitVec.toNat_eq, Option.bind_eq_some_iff]

/-! ### The obligations -/

/-- Settles O1: the row of a command's own fields is that command, and its bounds are met. -/
theorem decodeInvertsEncode : Obligations.DecodeInvertsEncode := by
  intro i hi
  obtain ⟨hop, ha, hb⟩ := Laws.encodedFields i
  rw [decode_eq_ok_iff, hop, ha, hb]
  exact ⟨rowOf_fields i, hi⟩

/-- Settles O2: the row that answered was given the command's fields, and a word is its three fields. -/
theorem encodeInvertsDecode : Obligations.EncodeInvertsDecode := by
  intro w i h
  obtain ⟨hrow, hi⟩ := decode_ok h
  exact ⟨(encode_of_rowOf hrow).trans (packWord_fields w), hi⟩

/-- Settles O3: row by row, on the fields of the word. -/
theorem decodeAcceptsExactlyLegalFields : Obligations.DecodeAcceptsExactlyLegalFields := by
  intro w
  simp only [decode_eq_ok_iff, rowOf_accepts_iff, wordFields_eq]

/-- Settles O5: the decoder runs on each word. -/
theorem sampleWordsDecode : Obligations.SampleWordsDecode := by
  unfold Obligations.SampleWordsDecode
  decide

end Sys2Proof.Machine
end

section
/-! SUPPORT. The template of a command's rule, proved once from the opcode map, the order of checks and the phase table
(R73, R214, R248 to R250): what is left of each command is its effect in a state where it runs. -/

namespace Sys2Proof.Machine

/-! ### Words given by their fields -/

theorem wordFields_packWord (op : Byte) (a : BitVec 16) (b : Byte) :
    wordFields (packWord op a b) = (op.toNat, a.toNat, b.toNat) := by
  rw [wordFields_eq, opField_packWord, aField_packWord, bField_packWord]

/-- Outside `FAULT` a word whose fields break R72 or R73 raises `IllegalCommand` (R248). -/
theorem performWord_of_not_legal {w : Word} {s : State} (hw : ¬ legalFields (wordFields w)) (hp : s.phase ≠ .fault) :
    performWord w s = .next (s.raised .illegalCommand w) := by
  cases hd : decode w with
  | ok i => exact absurd ((decodeAcceptsExactlyLegalFields w).mp ⟨i, hd⟩) hw
  | error r =>
    rw [performWord_of_error s hd, illegalWord, if_neg hp]
    rfl

/-- A command is well-formed just when its word is legal (R73). -/
theorem legalFields_encode_iff (i : Instr) : legalFields (wordFields (encode i)) ↔ i.wellFormed = true := by
  rw [encode, wordFields_packWord, ← rowOf_accepts_iff, rowOf_fields]
  simp

/-! ### Where a command runs -/

/-- `i` has its effect in `s`, or raises what its effect raises. -/
structure Runs (i : Instr) (s : State) : Prop where
  ok : ∀ {t}, effectOf i s = .ok t → exec i s = .next t
  error : ∀ {e}, effectOf i s = .error e → exec i s = .next (s.raised e (encode i))

theorem runs_of_allowed {i : Instr} {s : State} (hf : s.phase = .fault → runsInFault i = true)
    (hw : i.wellFormed = true) (ha : allowedIn i s.phase = true) : Runs i s := by
  refine ⟨fun he => ?_, fun he => ?_⟩ <;> rw [exec_eq_command]
  · exact command_ok hf hw ha he
  · exact command_error hf hw ha he

/-- The phase table allows in `FAULT` just the commands that run there (R214, R250). -/
theorem allowedIn_fault (i : Instr) : allowedIn i .fault = runsInFault i := by
  cases i <;> rfl

/-- The phases of a table command, and of `PUSH_BYTE` and `FLUSH` (R214). -/
theorem idle_or_done_iff (p : Phase) :
    (decide (p = .idle) || decide (p = .done)) = true ↔ p ∈ [Phase.idle, .done] := by
  simp

/-- The phases of a command that every phase but `FAULT` allows (R214). -/
theorem ne_fault_iff (p : Phase) : decide (p ≠ .fault) = true ↔ p ∈ [Phase.idle, .inBlock, .done] := by
  cases p <;> decide

/-- The rule of a command that does not run in `FAULT`: its word, its row of R73, its row of the phase table of R214, and
its effect where it runs. -/
theorem commandRule_of_runs {op : Byte} {a : BitVec 16} {b : Byte} {i : Instr} {legal : Nat → Nat → Prop}
    {phases : List Phase} {s : State} {own : Prop} (hword : encode i = packWord op a b)
    (hlegal : ∀ a' b', legalFields (op.toNat, a', b') ↔ legal a' b') (hfault : runsInFault i = false)
    (hphases : ∀ p, allowedIn i p = true ↔ p ∈ phases) (hown : legal a.toNat b.toNat → Runs i s → own) :
    CommandRule op a b i legal phases s own := by
  have hwf : legal a.toNat b.toNat → i.wellFormed = true := fun h =>
    (legalFields_encode_iff i).mp (by rw [hword, wordFields_packWord]; exact (hlegal _ _).mpr h)
  refine ⟨fun a' b' hn hp => ?_, fun hl => ?_, fun _ hp => ?_, fun hl hp hn => ?_, fun hl hp => hown hl ?_⟩
  · have hw : ¬ legalFields (wordFields (packWord op a' b')) := by
      rw [wordFields_packWord]
      exact fun h => hn ((hlegal _ _).mp h)
    exact performWord_of_not_legal hw hp
  · exact (congrArg decode hword).symm.trans (decodeInvertsEncode i (hwf hl))
  · rw [exec_eq_command, command_in_fault hp hfault]
  · rw [exec_eq_command, command_out_of_phase hp (hwf hl) (Bool.eq_false_iff.mpr fun h => hn ((hphases _).mp h)),
      hword]
    rfl
  · have ha := (hphases _).mpr hp
    exact runs_of_allowed (fun hf => by rwa [hf, allowedIn_fault] at ha) (hwf hl) ha

end Sys2Proof.Machine
end

section
/-! SUPPORT. The code builder unit (R100 to R104, R111 to R113): the table writes, the builds and the read-backs. -/

namespace Sys2Proof.Machine

/-! ### The table writes -/

/-- Settles O17: a length write is one entry of one file written and that table's flag cleared. -/
theorem lengthWrites : Obligations.LengthWrites := by
  intro s i v
  refine ⟨?_, ?_, ?_⟩ <;>
    exact commandRule_of_runs rfl (fun _ _ => Iff.rfl) rfl idle_or_done_iff fun hi hrun =>
      ⟨_, hrun.ok rfl, regAt_regSet_same _ v hi, fun j hj => regAt_regSet_other _ v hj, rfl⟩

/-- Settles O18: a count past the table's size is refused, and a smaller one fits its register. -/
theorem countWrites : Obligations.CountWrites := by
  intro s n
  refine ⟨?_, ?_⟩ <;>
    exact commandRule_of_runs rfl (fun _ _ => Iff.rfl) rfl idle_or_done_iff fun _ hrun =>
      ⟨fun hn => hrun.error (if_pos hn), fun hn => ⟨_, hrun.ok (if_neg (Nat.not_lt.mpr hn)),
        (BitVec.toNat_setWidth ..).trans (Nat.mod_eq_of_lt (by omega)), rfl⟩⟩

/-! ### The read-backs -/

/-- Settles O25: `RDATA` is wide enough for an entry of either file. -/
theorem readBacks : Obligations.ReadBacks := by
  intro s x i
  refine ⟨?_, ?_⟩ <;>
    exact commandRule_of_runs rfl (fun _ _ => Iff.rfl) rfl ne_fault_iff fun _ hrun =>
      ⟨_, hrun.ok rfl, BitVec.toNat_setWidth_of_le (by decide), rfl⟩

/-! ### The builds -/

/-- A build fails with the table's error (R105, R106). -/
theorem tableError_of_buildTable_error {s : State} {x : Table} {e : ErrCode} (h : s.buildTable x = .error e) :
    s.tableError x = some e := by
  rcases buildCodes_cases s.cfg.kraftCheck (s.len x) (s.count x) (maxLen x) with
    ⟨hrange, h'⟩ | ⟨hle, hkraft, h0, h1, h'⟩ | ⟨-, -, h'⟩
  · cases h.symm.trans h'
    exact if_pos hrange
  · cases h.symm.trans h'
    rw [kraftSum_usedLengths] at h0 h1
    have hrange : ¬ ∃ j < s.count x, maxLen x < s.lenAt x j := fun ⟨j, hj, hl⟩ => Nat.not_lt.mpr (hle j hj) hl
    rw [State.tableError, if_neg hrange]
    exact if_pos ⟨hkraft, h0, h1⟩
  · cases h.symm.trans h'

/-- The answer of a build by the table's error. -/
theorem buildTable_error_iff {s : State} {x : Table} {e : ErrCode} :
    s.buildTable x = .error e ↔ s.tableError x = some e := by
  refine ⟨tableError_of_buildTable_error, fun h => ?_⟩
  cases hb : s.buildTable x with
  | error e' =>
    cases h.symm.trans (tableError_of_buildTable_error hb)
    rfl
  | ok codes => cases h.symm.trans (buildTable_ok hb).1

theorem exists_buildTable_ok {s : State} {x : Table} (h : s.tableError x = none) : ∃ codes, s.buildTable x = .ok codes := by
  cases hb : s.buildTable x with
  | ok codes => exact ⟨codes, rfl⟩
  | error e => cases h.symm.trans (tableError_of_buildTable_error hb)

theorem encode_buildOne (x : Table) : encode (.build (.one x)) = packWord 0x06 0 (selNumber x) := by
  cases x <;> rfl

/-- Settles O19: the build answers the table's error or its reference codes, and the commit writes one code file. -/
theorem buildOneTable : Obligations.BuildOneTable := by
  intro s x
  refine commandRule_of_runs (encode_buildOne x) (fun _ _ => Iff.rfl) rfl idle_or_done_iff fun _ hrun => ?_
  refine ⟨fun e he => hrun.error (congrArg (Except.map (s.putCode x)) (buildTable_error_iff.mpr he)), fun hnone => ?_⟩
  obtain ⟨codes, hb⟩ := exists_buildTable_ok hnone
  have heffect : effectOf (.build (.one x)) s = .ok (s.putCode x codes) := congrArg (Except.map (s.putCode x)) hb
  refine ⟨_, hrun.ok heffect, fun j _ => ?_, s.putCode_cv x codes, fun y hy => s.putCode_code_other x codes hy, ?_⟩
  · rw [State.putCode_code_same]
    exact (buildTable_ok hb).2 j
  · cases x <;> rfl

/-- The first failing table in the order LL, D, CL names the error of the three builds (R111, R249). -/
theorem buildAll_of_buildError {s : State} {e : ErrCode} (h : s.buildError = some e) : buildAll s = .error e := by
  cases h1 : s.tableError .ll with
  | some e1 =>
    rw [State.buildError, h1] at h
    rw [buildAll, buildTable_error_iff.mpr h1]
    cases h
    rfl
  | none =>
    obtain ⟨c1, hb1⟩ := exists_buildTable_ok h1
    cases h2 : s.tableError .d with
    | some e2 =>
      rw [State.buildError, h1, h2] at h
      rw [buildAll, hb1, buildTable_error_iff.mpr h2]
      cases h
      rfl
    | none =>
      obtain ⟨c2, hb2⟩ := exists_buildTable_ok h2
      rw [State.buildError, h1, h2] at h
      rw [buildAll, hb1, hb2, buildTable_error_iff.mpr (show s.tableError .cl = some e from h)]
      rfl

theorem State.buildError_eq_none_iff (s : State) : s.buildError = none ↔ ∀ x, s.tableError x = none := by
  simp only [State.buildError, Option.or_eq_none_iff]
  refine ⟨fun ⟨⟨hll, hd⟩, hcl⟩ x => ?_, fun h => ⟨⟨h .ll, h .d⟩, h .cl⟩⟩
  cases x with
  | ll => exact hll
  | d => exact hd
  | cl => exact hcl

/-- Settles O20: with an error nothing is committed; without one every table's build answers its reference codes. -/
theorem buildAllTables : Obligations.BuildAllTables := by
  intro s
  refine commandRule_of_runs rfl (fun _ _ => Iff.rfl) rfl idle_or_done_iff fun _ hrun => ?_
  refine ⟨fun e he => hrun.error (buildAll_of_buildError he), fun hnone => ?_⟩
  have herr := s.buildError_eq_none_iff.mp hnone
  obtain ⟨c1, h1⟩ := exists_buildTable_ok (herr .ll)
  obtain ⟨c2, h2⟩ := exists_buildTable_ok (herr .d)
  obtain ⟨c3, h3⟩ := exists_buildTable_ok (herr .cl)
  refine ⟨_, hrun.ok (buildAll_of_buildTable h1 h2 h3), fun x j _ => ?_, rfl, rfl⟩
  cases x with
  | ll => exact (buildTable_ok h1).2 j
  | d => exact (buildTable_ok h2).2 j
  | cl => exact (buildTable_ok h3).2 j

end Sys2Proof.Machine
end

section
/-! SUPPORT. What a build reads (R114), why none of its codes begins another (R115), and the placeholder table (R116). -/

namespace Sys2Proof.Machine

/-! ### What a build reads -/

theorem usedLengths_congr {size : Nat} {a b : Vector Byte size} {n : Nat} (h : ∀ j < n, regAt a j = regAt b j) :
    usedLengths a n = usedLengths b n := by
  rw [usedLengths_eq_map, usedLengths_eq_map]
  exact List.map_congr_left fun j hj => congrArg BitVec.toNat (h j (List.mem_range.mp hj))

/-- Settles O21: a build reads its length file only through the entries in count. -/
theorem buildReadsOnlyTheTable : Obligations.BuildReadsOnlyTheTable := by
  intro size a b n maxlen kraft h
  rw [buildCodes, usedLengths_congr h, buildCodes]

/-! ### Codes as bits -/

theorem codeBits_eq_reverse_fieldBits (c L : Nat) : codeBits c L = (fieldBits c L).reverse := List.map_reverse

theorem codeBits_inj {v w L : Nat} (hv : v < 2 ^ L) (hw : w < 2 ^ L) (h : codeBits v L = codeBits w L) : v = w := by
  rw [codeBits_eq_reverse_fieldBits, codeBits_eq_reverse_fieldBits, List.reverse_inj] at h
  exact fieldBits_inj hv hw h

/-- The first `L` bits of a code of `L + d` bits are its quotient by `2^d` (R51 b). -/
theorem codeBits_add (c L d : Nat) : codeBits c (L + d) = codeBits (c / 2 ^ d) L ++ codeBits c d := by
  simp [codeBits, Nat.add_comm _ d, List.range_add, Function.comp_def, Nat.testBit_div_two_pow]

/-- A code whose bits begin those of another is the other's leading bits. -/
theorem eq_div_of_codeBits_prefix {c c' L L' : Nat} (hc : c < 2 ^ L) (hc' : c' < 2 ^ L')
    (h : codeBits c L <+: codeBits c' L') : L ≤ L' ∧ c = c' / 2 ^ (L' - L) := by
  have hle : L ≤ L' := by simpa using h.length_le
  obtain ⟨d, rfl⟩ := Nat.exists_eq_add_of_le hle
  obtain ⟨rest, hrest⟩ := h
  rw [codeBits_add] at hrest
  rw [Nat.add_sub_cancel_left]
  refine ⟨hle, codeBits_inj hc (Nat.div_lt_of_lt_mul ?_) (List.append_inj_left hrest (by simp))⟩
  rwa [← Nat.pow_add, Nat.add_comm]

/-! ### Why no code begins another -/

/-- Every code of length `L`, extended to a greater length, stays below the first code of that length (R108). -/
theorem refFirst_add_refCount_mul_le (len : Nat → Nat) (n : Nat) {L : Nat} (h0 : L ≠ 0) (d : Nat) :
    (refFirst len n L + refCount len n L) * 2 ^ (d + 1) ≤ refFirst len n (L + d + 1) := by
  obtain ⟨L, rfl⟩ := Nat.exists_eq_add_one_of_ne_zero h0
  induction d with
  | zero => exact (Nat.mul_comm ..).le
  | succ d ih =>
    calc (refFirst len n (L + 1) + refCount len n (L + 1)) * 2 ^ (d + 1 + 1)
        = 2 * ((refFirst len n (L + 1) + refCount len n (L + 1)) * 2 ^ (d + 1)) := by ring
      _ ≤ 2 * (refFirst len n (L + 1 + d + 1) + refCount len n (L + 1 + d + 1)) :=
          Nat.mul_le_mul_left 2 (ih.trans (Nat.le_add_right _ _))
      _ = refFirst len n (L + 1 + (d + 1) + 1) := rfl

/-- Two symbols of one length differ in their rank. -/
theorem eq_of_refCount_eq {len : Nat → Nat} {i j : Nat} (hlen : len i = len j)
    (h : refCount len i (len i) = refCount len j (len j)) : i = j := by
  rcases Nat.lt_trichotomy i j with hij | hij | hij
  · have := refCount_lt_of_lt len hij
    rw [← hlen] at h; omega
  · exact hij
  · have := refCount_lt_of_lt len hij
    rw [hlen] at h; omega

section prefixFree
variable {len : Nat → Nat} {n : Nat} (hk : refKraft len n ≤ 2 ^ 15) (h15 : ∀ j < n, len j ≤ 15)
include hk h15

/-- With `K ≤ 2^15` no code is cut to 15 bits (R109, R115). -/
theorem refCode_eq_of_kraft_le {j : Nat} (hj : j < n) (h0 : len j ≠ 0) :
    refCode len n j = refFirst len n (len j) + refCount len j (len j) := by
  have hle := refFirst_add_refCount_le hk h0 (h15 j hj)
  have hlt := refCount_lt_of_lt len hj
  have hpow : 2 ^ len j ≤ 2 ^ 15 := Nat.pow_le_pow_right Nat.two_pos (h15 j hj)
  rw [refCode_of_used hj h0, Nat.mod_eq_of_lt (by omega)]

/-- Equal lengths differ by their ranks; a longer code starts past every extension of a shorter one. -/
theorem refCode_not_prefix {i j : Nat} (hi : i < n) (hj : j < n) (hij : i ≠ j) (hi0 : len i ≠ 0) (hj0 : len j ≠ 0) :
    ¬ codeBits (refCode len n i) (len i) <+: codeBits (refCode len n j) (len j) := by
  intro h
  obtain ⟨hle, hdiv⟩ := eq_div_of_codeBits_prefix (refCode_lt_two_pow hk hi hi0 (h15 i hi))
    (refCode_lt_two_pow hk hj hj0 (h15 j hj)) h
  rw [refCode_eq_of_kraft_le hk h15 hi hi0, refCode_eq_of_kraft_le hk h15 hj hj0] at hdiv
  rcases Nat.eq_or_lt_of_le hle with heq | hlt
  · refine hij (eq_of_refCount_eq heq ?_)
    rw [heq, Nat.sub_self, Nat.pow_zero, Nat.div_one] at hdiv
    rw [heq]; omega
  · obtain ⟨d, hd⟩ := Nat.exists_eq_add_of_lt hlt
    have hpast := refFirst_add_refCount_mul_le len n hi0 d
    have hrank := refCount_lt_of_lt len hi
    rw [← hd] at hpast
    have hquot : refFirst len n (len i) + refCount len n (len i) ≤
        (refFirst len n (len j) + refCount len j (len j)) / 2 ^ (d + 1) :=
      (Nat.le_div_iff_mul_le (Nat.two_pow_pos _)).mpr (hpast.trans (Nat.le_add_right _ _))
    rw [show len j - len i = d + 1 by omega] at hdiv
    omega

end prefixFree

/-- Settles O22: the registers hold the reference codes, which fit their lengths, and none of which begins another. -/
theorem builtCodesArePrefixFree : Obligations.BuiltCodesArePrefixFree := by
  intro size lens n maxlen kraft codes hmax h
  obtain ⟨hle, hkraft, -⟩ := buildCodes_ok h
  have h15 : ∀ j < n, (regAt lens j).toNat ≤ 15 := fun j hj => (hle j hj).trans hmax
  have hused : ∀ {j}, regAt lens j ≠ 0 → (regAt lens j).toNat ≠ 0 := fun hj h0 => hj (BitVec.eq_of_toNat_eq h0)
  refine ⟨fun hkc => ?_, fun hk => ⟨fun j hj hj0 => ?_, fun i hi j hj hij hi0 hj0 => ?_⟩⟩
  · rcases hkraft hkc with hk | hk <;> omega
  · rw [buildCodes_regAt hmax h]
    exact refCode_lt_two_pow hk hj (hused hj0) (h15 j hj)
  · rw [buildCodes_regAt hmax h, buildCodes_regAt hmax h]
    exact refCode_not_prefix hk h15 hi hj hij (hused hi0) (hused hj0)

/-! ### The placeholder table -/

theorem exists_buildCodes_ok {size : Nat} {kraft : Bool} {lens : Vector Byte size} {n maxlen : Nat}
    (hrange : ∀ j < n, (regAt lens j).toNat ≤ maxlen)
    (hkraft : refKraft (fun j => (regAt lens j).toNat) n = 2 ^ 15) :
    ∃ codes, buildCodes kraft lens n maxlen = .ok codes := by
  rcases buildCodes_cases kraft lens n maxlen with ⟨⟨j, hj, hl⟩, -⟩ | ⟨-, -, -, hk, -⟩ | ⟨-, -, h⟩
  · exact absurd (hrange j hj) (Nat.not_le.mpr hl)
  · exact absurd ((kraftSum_usedLengths lens n).trans hkraft) hk
  · exact ⟨_, h⟩

/-- The lengths of the placeholder table (R116). -/
def placeholderLen (j : Nat) : Nat := if j < 226 then 8 else if j < 286 then 9 else 0

theorem regAt_placeholder (j : Nat) :
    (regAt (Vector.replicate 226 (8 : Byte) ++ Vector.replicate 60 (9 : Byte)) j).toNat = placeholderLen j := by
  rw [regAt, Vector.getElem?_append]
  by_cases h8 : j < 226
  · simp [placeholderLen, h8]
  · have hiff : j - 226 < 60 ↔ j < 286 := by omega
    by_cases h9 : j < 286 <;> simp [placeholderLen, h8, h9, hiff]

theorem refKraft_placeholder : refKraft placeholderLen 286 = 2 ^ 15 := by decide +kernel

theorem refFirst_placeholder : refFirst placeholderLen 286 8 = 0 ∧ refFirst placeholderLen 286 9 = 452 := by
  decide +kernel

/-- The rank of a symbol of length 8 is its number. -/
theorem refCount_placeholder_eight {j : Nat} (hj : j ≤ 226) : refCount placeholderLen j 8 = j := by
  induction j with
  | zero => rfl
  | succ j ih => simp [refCount_succ, placeholderLen, ih (by omega), show j < 226 by omega]

/-- The rank of a symbol of length 9 counts from symbol 226. -/
theorem refCount_placeholder_nine {j : Nat} (hj : j ≤ 60) : refCount placeholderLen (226 + j) 9 = j := by
  induction j with
  | zero => decide +kernel
  | succ j ih => simp [← Nat.add_assoc, refCount_succ, placeholderLen, ih (by omega), show 226 + j < 286 by omega]

theorem refCode_placeholder_eight {j : Nat} (hj : j < 226) : refCode placeholderLen 286 j = j := by
  have hlen : placeholderLen j = 8 := if_pos hj
  rw [refCode_of_used (by omega) (by omega), hlen, refFirst_placeholder.1, refCount_placeholder_eight hj.le]
  omega

theorem refCode_placeholder_nine {j : Nat} (hj : j < 60) : refCode placeholderLen 286 (226 + j) = 452 + j := by
  have hlen : placeholderLen (226 + j) = 9 := by rw [placeholderLen, if_neg (by omega), if_pos (by omega)]
  rw [refCode_of_used (by omega) (by omega), hlen, refFirst_placeholder.2, refCount_placeholder_nine hj.le]
  omega

/-- Settles O24: the reference codes of the two lengths count up from 0 and from 452. -/
theorem placeholderTableCodes : Obligations.PlaceholderTableCodes := by
  have hlens : (fun j => (regAt (Vector.replicate 226 (8 : Byte) ++ Vector.replicate 60 (9 : Byte)) j).toNat) =
      placeholderLen := funext regAt_placeholder
  have hrange : ∀ j < 286, placeholderLen j ≤ 15 := fun j _ => by unfold placeholderLen; split_ifs <;> omega
  obtain ⟨codes, h⟩ := exists_buildCodes_ok (kraft := true) (n := 286) (maxlen := 15)
    (fun j hj => (regAt_placeholder j).trans_le (hrange j hj)) (hlens ▸ refKraft_placeholder)
  have hcode : ∀ j, (regAt codes j).toNat = refCode placeholderLen 286 j := hlens ▸ buildCodes_regAt (le_refl 15) h
  refine ⟨codes, h, fun j hj => ?_, fun j hj => ?_, ?_⟩
  · rw [hcode, refCode_placeholder_eight hj]
  · rw [hcode, refCode_placeholder_nine hj]
  · exact (hcode 256).trans (refCode_placeholder_nine (j := 30) (by omega))

end Sys2Proof.Machine
end

section
/-! SUPPORT. The block serializer unit (R140 to R151): what `BLOCK_BEGIN` checks and sends, and what the commands
inside a block and at its end send, each as bits appended to the sink. -/

namespace Sys2Proof.Machine

/-! ### The checks of `BLOCK_BEGIN` (R143, R249) -/

theorem exists_buildAll_ok {s : State} (h : s.buildError = none) : ∃ b, buildAll s = .ok b := by
  have herr := s.buildError_eq_none_iff.mp h
  obtain ⟨c1, h1⟩ := exists_buildTable_ok (herr .ll)
  obtain ⟨c2, h2⟩ := exists_buildTable_ok (herr .d)
  obtain ⟨c3, h3⟩ := exists_buildTable_ok (herr .cl)
  exact ⟨_, buildAll_of_buildTable h1 h2 h3⟩

theorem buildError_of_buildAll_error {s : State} {e : ErrCode} (h : buildAll s = .error e) : s.buildError = some e := by
  cases he : s.buildError with
  | none =>
    obtain ⟨b, hb⟩ := exists_buildAll_ok he
    cases h.symm.trans hb
  | some e' =>
    cases h.symm.trans (buildAll_of_buildError he)
    rfl

theorem buildError_of_buildAll_ok {s b : State} (h : buildAll s = .ok b) : s.buildError = none := by
  cases he : s.buildError with
  | none => rfl
  | some e => cases h.symm.trans (buildAll_of_buildError he)

/-- Past the count check and the builds, `BLOCK_BEGIN` can only find a symbol without a code. -/
theorem State.beginError_of_built {s : State} (hn : 257 ≤ s.nlit.toNat) (hb : s.buildError = none) :
    s.beginError = if s.blockEncodable then none else some .symbolNotEncodable := by
  rw [State.beginError, if_neg (Nat.not_lt.mpr hn), hb, Option.none_or]
  by_cases heob : s.lenAt .ll 256 = 0
  · simp [s.blockEncodable_iff, heob]
  · by_cases hvals : ∃ v ∈ s.refVals, s.lenAt .cl v = 0 <;> simp [s.blockEncodable_iff, heob, hvals]

/-- The effect answers the reference error, if there is one, and succeeds otherwise. -/
theorem blockBegin_beginError (f : Bool) (s : State) :
    (∃ e, s.beginError = some e ∧ blockBeginEffect f s = .error e) ∨
    (s.beginError = none ∧ ∃ t, blockBeginEffect f s = .ok t) := by
  rcases blockBegin_cases f s with ⟨hlt, h⟩ | ⟨hn, e, hb, h⟩ | ⟨hn, b, hb, henc, h⟩ | ⟨hn, b, hb, henc, h⟩
  · exact .inl ⟨_, if_pos hlt, h⟩
  · refine .inl ⟨e, ?_, h⟩
    rw [State.beginError, if_neg (Nat.not_lt.mpr hn), buildError_of_buildAll_error hb, Option.some_or]
  · refine .inl ⟨_, ?_, h⟩
    simp [State.beginError_of_built hn (buildError_of_buildAll_ok hb), henc]
  · refine .inr ⟨?_, _, h⟩
    simp [State.beginError_of_built hn (buildError_of_buildAll_ok hb), henc]

theorem blockBeginEffect_of_beginError {s : State} {e : ErrCode} (f : Bool) (h : s.beginError = some e) :
    blockBeginEffect f s = .error e := by
  rcases blockBegin_beginError f s with ⟨e', he', herr⟩ | ⟨hnone, -⟩
  · cases h.symm.trans he'
    exact herr
  · cases h.symm.trans hnone

theorem exists_blockBeginEffect_ok {s : State} (f : Bool) (h : s.beginError = none) :
    ∃ t, blockBeginEffect f s = .ok t := by
  rcases blockBegin_beginError f s with ⟨e, he, -⟩ | ⟨-, hok⟩
  · cases h.symm.trans he
  · exact hok

/-! ### The header (R142 to R146) -/

theorem Sink.pushAll_spec {k : Sink} (hk : k.wf) (bs : List Bool) :
    (k.pushAll bs).wf ∧ (k.pushAll bs).bits = k.bits ++ bs :=
  ⟨Sink.wf_pushAll bs hk, Sink.bits_pushAll bs hk⟩

/-- The header is sent with the counts and lengths of `s` and with the codes just built from them. -/
theorem buildAll_header {s b : State} (h : buildAll s = .ok b) (f : Bool) (k : Sink) :
    b.pushVals (b.pushClLens (b.pushCounts f k)) = k.pushAll (s.headerBits f) := by
  obtain ⟨c1, c2, c3, -, -, h3, rfl⟩ := buildAll_ok h
  have hcode : ∀ v, (regAt c3 v).toNat = refCode (s.lenAt .cl) 19 v := (buildTable_ok h3).2
  have hvals : State.vals (((s.putCode .ll c1).putCode .d c2).putCode .cl c3) = s.refVals := s.vals_eq_refVals
  have hfinal : fieldBits f.toNat 1 = [f] := by cases f <;> rfl
  rw [State.pushVals_eq_pushAll, State.pushClLens_eq_pushAll, State.pushCounts_eq_pushAll, Sink.pushAll_append,
    Sink.pushAll_append, hvals, hfinal]
  simp only [State.headerBits, List.append_assoc, ← hcode]
  rfl

/-- A `BLOCK_BEGIN` that succeeds, whole: the built codes, and what it writes. -/
theorem blockBeginEffect_spec {f : Bool} {s t : State} (h : blockBeginEffect f s = .ok t) :
    (∀ x, t.hasCodesOf s x) ∧ ∃ c1 c2 c3,
      t = { s with llCode := c1, dCode := c2, clCode := c3, cv := ⟨true, true, true⟩, finalFlag := f, phase := .inBlock,
                   sink := s.sink.pushAll (s.headerBits f) } := by
  obtain ⟨-, -, b, hb, rfl⟩ := blockBeginEffect_ok h
  rw [buildAll_header hb]
  obtain ⟨c1, c2, c3, h1, h2, h3, rfl⟩ := buildAll_ok hb
  refine ⟨fun x j _ => ?_, c1, c2, c3, rfl⟩
  cases x with
  | ll => exact (buildTable_ok h1).2 j
  | d => exact (buildTable_ok h2).2 j
  | cl => exact (buildTable_ok h3).2 j

/-- A command that one phase alone allows (R214). -/
theorem only_phase_iff (q p : Phase) : decide (p = q) = true ↔ p ∈ [q] := by simp

/-- Settles O26: the effect raises the reference error, or builds the reference codes and appends the header's bits. -/
theorem blockBeginEmitsTheHeader : Obligations.BlockBeginEmitsTheHeader := by
  intro s f
  refine commandRule_of_runs rfl (fun _ _ => Iff.rfl) rfl (only_phase_iff .idle) fun _ hrun => ?_
  refine ⟨fun e he => hrun.error (blockBeginEffect_of_beginError f he), fun hnone => ?_⟩
  obtain ⟨t, hok⟩ := exists_blockBeginEffect_ok f hnone
  obtain ⟨hcodes, c1, c2, c3, rfl⟩ := blockBeginEffect_spec hok
  refine ⟨_, hrun.ok hok, hcodes, rfl, rfl, rfl, fun hk => ?_, ?_⟩ <;> dsimp only
  exact Sink.pushAll_spec hk (s.headerBits f)

/-! ### The symbol commands and the end of a block (R147 to R149) -/

theorem emitSymbol_of_code {x : Table} {sym : BitVec 16} {s : State} (hcount : sym.toNat < s.count x)
    (hlen : regAt (s.len x) sym.toNat ≠ 0) :
    emitSymbol x sym s =
      .ok { s with sink := s.sink.pushCode (regAt (s.code x) sym.toNat) (regAt (s.len x) sym.toNat).toNat } :=
  if_neg (not_or.mpr ⟨Nat.not_le.mpr hcount, hlen⟩)

/-- R54 keeps the invariant of R32 and appends the code's bits. -/
theorem Sink.pushCode_spec {k : Sink} (hk : k.wf) (c : Code) (L : Nat) :
    (k.pushCode c L).wf ∧ (k.pushCode c L).bits = k.bits ++ codeBits c.toNat L := by
  obtain ⟨-, -, hcode⟩ := sinkPrimitivesAppendInOrder k hk
  exact hcode c L

/-- Settles O28: the effect refuses a symbol without a code, and else pushes the code. -/
theorem emitSymbols : Obligations.EmitSymbols := by
  intro s sym
  refine ⟨?_, ?_⟩ <;>
    exact commandRule_of_runs rfl (fun _ _ => Iff.rfl) rfl (only_phase_iff .inBlock) fun _ hrun =>
      ⟨fun hnone => hrun.error (if_pos hnone), fun hcount hlen =>
        ⟨_, hrun.ok (emitSymbol_of_code hcount hlen), fun hk => Sink.pushCode_spec hk _ _, rfl⟩⟩

/-- Settles O29: `BLOCK_END` has no check of its own, and `FINAL` picks the next phase. -/
theorem blockEndClosesTheBlock : Obligations.BlockEndClosesTheBlock := by
  intro s
  exact commandRule_of_runs rfl (fun _ _ => Iff.rfl) rfl (only_phase_iff .inBlock) fun _ hrun =>
    ⟨_, hrun.ok rfl, fun hk => Sink.pushCode_spec hk _ _, fun hf => if_pos hf, fun hf => if_neg (by simp [hf]), rfl⟩

/-! ### Bit counts (R151) -/

theorem Sink.bitCount_pushAll (bs : List Bool) (k : Sink) : (k.pushAll bs).bitCount = k.bitCount + bs.length := by
  induction bs generalizing k with
  | nil => rfl
  | cons b bs ih =>
    have hrest := ih (k.pushBit b)
    rw [Sink.bitCount_pushBit, Nat.add_assoc, Nat.add_comm 1] at hrest
    exact hrest

theorem Sink.bitCount_pushCode (k : Sink) (c : Code) (L : Nat) : (k.pushCode c L).bitCount = k.bitCount + L := by
  rw [Sink.pushCode_eq_pushAll, Sink.bitCount_pushAll, length_codeBits]

/-- 17 bits before the code-length lengths, 19 of those with 3 bits each, then the values' codes. -/
theorem State.length_headerBits (s : State) (f : Bool) :
    (s.headerBits f).length = 74 + (s.refVals.map (s.lenAt .cl)).sum := by
  have hvals : (s.refVals.flatMap fun v => codeBits (refCode (s.lenAt .cl) 19 v) (s.lenAt .cl v)).length =
      (s.refVals.map (s.lenAt .cl)).sum := by simp [List.length_flatMap]
  simp [State.headerBits, hvals]
  omega

/-- A command that leaves the block outside `FAULT` has had its effect. -/
theorem effectOf_of_exec {i : Instr} {s t : State} (ht : t.phase ≠ .fault) (h : exec i s = .next t) :
    effectOf i s = .ok t := by
  rcases exec_cases h with ⟨hp, -, rfl⟩ | ⟨-, e, -, rfl⟩ | ⟨-, -, he⟩
  · exact absurd hp ht
  · exact absurd rfl ht
  · exact he

/-- Settles O31: without an error each command appends its list of bits, and the count grows by the list's length. -/
theorem serializerBitCounts : Obligations.SerializerBitCounts := by
  intro s t ht
  refine ⟨fun f _ h => ?_, fun sym _ h => ?_, fun sym _ h => ?_, fun _ h => ?_⟩ <;> have he := effectOf_of_exec ht h
  · obtain ⟨-, c1, c2, c3, rfl⟩ := blockBeginEffect_spec he
    dsimp only
    rw [Sink.bitCount_pushAll, State.length_headerBits]
  · obtain ⟨-, -, rfl⟩ := emitSymbol_ok he
    exact Sink.bitCount_pushCode ..
  · obtain ⟨-, -, rfl⟩ := emitSymbol_ok he
    exact Sink.bitCount_pushCode ..
  · cases he
    exact Sink.bitCount_pushCode ..

/-! ### The codes of an open block (R143, R264) -/

theorem State.lt_size_of_lenAt_ne_zero {s : State} {x : Table} {j : Nat} (h : s.lenAt x j ≠ 0) : j < x.size := by
  by_contra hj
  rw [State.lenAt, regAt_past_end _ (Nat.le_of_not_lt hj)] at h
  exact h rfl

/-- A used symbol of a built table goes onto the sink as its canonical code. -/
theorem State.Built.pushCode {s : State} {x : Table} (hs : s.Built x) {j : Nat} (h : s.lenAt x j ≠ 0) (k : Sink) :
    k.pushCode (regAt (s.code x) j) (regAt (s.len x) j).toNat =
      k.pushAll (codeBits (refCode (s.lenAt x) (s.count x) j) (s.lenAt x j)) := by
  obtain ⟨-, hcodes⟩ := hs
  rw [Sink.pushCode_eq_pushAll, hcodes j (State.lt_size_of_lenAt_ne_zero h)]
  rfl

theorem State.Built.lenAt_le {s : State} {x : Table} (hs : s.Built x) {j : Nat} (hj : j < s.count x) :
    s.lenAt x j ≤ maxLen x := by
  obtain ⟨herr, -⟩ := hs
  by_contra hlt
  rw [State.tableError, if_pos ⟨j, hj, Nat.lt_of_not_le hlt⟩] at herr
  cases herr

/-- The canonical end-of-block code of the lengths of `s`. -/
def State.eobBits (s : State) : List Bool :=
  codeBits (refCode (s.lenAt .ll) s.nlit.toNat 256) (s.lenAt .ll 256)

theorem State.eobBits_congr {s t : State} (hlen : ∀ x, t.len x = s.len x) (hcount : ∀ x, t.count x = s.count x) :
    t.eobBits = s.eobBits := by
  have hnlit : t.nlit.toNat = s.nlit.toNat := hcount .ll
  rw [State.eobBits, State.lenAt_congr (hlen .ll), hnlit, State.eobBits]

section openBlock
variable {s : State} (hs : s.CodesInv) (hp : s.phase = .inBlock)
include hs hp

theorem State.CodesInv.built_of_inBlock (x : Table) : s.Built x := by
  obtain ⟨-, hall⟩ := hs.inBlock hp
  exact hs.built (hall x)

/-- The end-of-block symbol is in count and has a code, since `BLOCK_BEGIN` checked it. -/
theorem State.CodesInv.eob_has_code : 256 < s.count .ll ∧ s.lenAt .ll 256 ≠ 0 := by
  obtain ⟨hbegin, -⟩ := hs.inBlock hp
  obtain ⟨t, hok⟩ := exists_blockBeginEffect_ok false hbegin
  obtain ⟨hn, henc, -⟩ := blockBeginEffect_ok hok
  obtain ⟨heob, -⟩ := s.blockEncodable_iff.mp henc
  exact ⟨hn, heob⟩

theorem exec_blockEnd_of_open : exec .blockEnd s =
    .next { s with sink := s.sink.pushAll s.eobBits, phase := if s.finalFlag then .done else .idle } := by
  obtain ⟨-, heob⟩ := hs.eob_has_code hp
  have hpush : s.sink.pushCode (regAt s.llCode eob) (regAt s.llLen eob).toNat = s.sink.pushAll s.eobBits :=
    (hs.built_of_inBlock hp .ll).pushCode heob s.sink
  rw [← hpush]
  exact exec_of_effect (by simp [hp]) rfl (by simp [allowedIn, hp]) rfl

theorem emitSymbol_of_open {x : Table} {sym : BitVec 16} (hcount : sym.toNat < s.count x)
    (hlen : s.lenAt x sym.toNat ≠ 0) : emitSymbol x sym s = .ok { s with
      sink := s.sink.pushAll (codeBits (refCode (s.lenAt x) (s.count x) sym.toNat) (s.lenAt x sym.toNat)) } := by
  rw [emitSymbol_of_code hcount ((s.regAt_len_ne_zero x _).mpr hlen), (hs.built_of_inBlock hp x).pushCode hlen]

/-- A command of step 7 appends its bits, and changes nothing but the sink. -/
theorem exec_of_bodyBits {i : Instr} {bs : List Bool} (h : s.bodyBits i = some bs) :
    exec i s = .next { s with sink := s.sink.pushAll bs } := by
  have hf : s.phase ≠ .fault := by simp [hp]
  cases i with
  | emitLl sym =>
    obtain ⟨⟨hcount, hlen⟩, hbs⟩ := Option.ite_none_right_eq_some.mp h
    cases hbs
    exact exec_of_effect hf rfl (by simp [allowedIn, hp]) (emitSymbol_of_open hs hp (x := .ll) hcount hlen)
  | emitDist sym =>
    obtain ⟨⟨hcount, hlen⟩, hbs⟩ := Option.ite_none_right_eq_some.mp h
    cases hbs
    exact exec_of_effect hf rfl (by simp [allowedIn, hp]) (emitSymbol_of_open hs hp (x := .d) hcount hlen)
  | pushBit b =>
    cases h
    exact exec_of_effect hf rfl (by simp [allowedIn, hp]) rfl
  | pushBits v n =>
    obtain ⟨hlegal, hbs⟩ := Option.ite_none_right_eq_some.mp h
    cases hbs
    rw [← Sink.pushBits_eq_pushAll]
    exact exec_of_effect hf ((wellFormed_pushBits v n).mpr hlegal) (by simp [allowedIn, hp]) rfl
  | _ => cases h

end openBlock

/-- Settles O30: an open block's literal/length table is built, so its code is canonical and its length at most 15. -/
theorem openBlockCanBeClosed : Obligations.OpenBlockCanBeClosed := by
  intro s hs hp
  obtain ⟨hcount, heob⟩ := hs.eob_has_code hp
  have hle : s.lenAt .ll 256 ≤ 15 := (hs.built_of_inBlock hp .ll).lenAt_le hcount
  refine ⟨_, exec_blockEnd_of_open hs hp, ?_, rfl, Nat.one_le_iff_ne_zero.mpr heob, hle, fun hk => Sink.bits_pushAll _ hk⟩
  cases s.finalFlag <;> simp

/-! ### Sequences of commands in an open block (R140, R150) -/

theorem State.bodyBits_congr {s t : State} (hlen : ∀ x, t.len x = s.len x) (hcount : ∀ x, t.count x = s.count x)
    (i : Instr) : t.bodyBits i = s.bodyBits i := by
  have hnlit : t.nlit.toNat = s.nlit.toNat := hcount .ll
  have hndist : t.ndist.toNat = s.ndist.toNat := hcount .d
  cases i <;> simp only [State.bodyBits, hnlit, hndist, State.lenAt_congr (hlen _)]

theorem State.CodesInv.withSink {s : State} (hs : s.CodesInv) (k : Sink) : State.CodesInv { s with sink := k } :=
  hs.of_sameTables (fun _ => ⟨State.withSink_len .., State.withSink_count .., State.withSink_code ..⟩) rfl rfl id

theorem execAll_append {is js : List Instr} {s t : State} (h : execAll is s = .next t) :
    execAll (is ++ js) s = execAll js t := by
  induction is generalizing s with
  | nil => cases h; rfl
  | cons i is ih =>
    cases hi : exec i s with
    | next u =>
      rw [execAll_cons_of_next hi] at h
      rw [List.cons_append, execAll_cons_of_next hi, ih h]
    | fault r => simp [execAll, hi] at h
    | refused r => simp [execAll, hi] at h

/-- Commands of step 7, here given by a list of any type, append their bits one command after another: each leaves the
tables and the phase that the next one needs. -/
theorem execAll_of_bodyBits {α : Type} {instrOf : α → Instr} {bitsOf : α → List Bool} {xs : List α} {s : State}
    (hs : s.CodesInv) (hp : s.phase = .inBlock) (h : ∀ x ∈ xs, s.bodyBits (instrOf x) = some (bitsOf x)) :
    execAll (xs.map instrOf) s = .next { s with sink := s.sink.pushAll (xs.flatMap bitsOf) } := by
  induction xs generalizing s with
  | nil => rfl
  | cons x xs ih =>
    obtain ⟨hx, hxs⟩ := List.forall_mem_cons.mp h
    have hsame := State.bodyBits_congr (State.withSink_len s (s.sink.pushAll (bitsOf x))) (State.withSink_count s _)
    have hrest := ih (hs.withSink (s.sink.pushAll (bitsOf x))) hp fun y hy => (hsame _).trans (hxs y hy)
    rw [List.map_cons, execAll_cons_of_next (exec_of_bodyBits hs hp hx), hrest, Sink.pushAll_append, List.flatMap_cons]

/-- Settles O33: the commands' bits, appended in order. -/
theorem openBlockBodyBits : Obligations.OpenBlockBodyBits := fun _ _ hs hp hk h =>
  ⟨_, execAll_of_bodyBits hs hp h, Sink.wf_pushAll _ hk, Sink.bits_pushAll _ hk, rfl⟩

/-! ### A whole block (R140) -/

/-- The command of a literal/length (`true`) or distance (`false`) symbol. -/
def symbolInstr (p : Bool × BitVec 16) : Instr := if p.1 then .emitLl p.2 else .emitDist p.2

/-- The canonical code of a symbol under the lengths of `s`, as bits. -/
def State.symbolBits (s : State) (p : Bool × BitVec 16) : List Bool :=
  if p.1 then codeBits (refCode (s.lenAt .ll) s.nlit.toNat p.2.toNat) (s.lenAt .ll p.2.toNat)
  else codeBits (refCode (s.lenAt .d) s.ndist.toNat p.2.toNat) (s.lenAt .d p.2.toNat)

theorem State.bodyBits_symbolInstr {s : State} {p : Bool × BitVec 16}
    (h : if p.1 then p.2.toNat < s.nlit.toNat ∧ s.lenAt .ll p.2.toNat ≠ 0
      else p.2.toNat < s.ndist.toNat ∧ s.lenAt .d p.2.toNat ≠ 0) :
    s.bodyBits (symbolInstr p) = some (s.symbolBits p) := by
  obtain ⟨_ | _, sym⟩ := p <;> exact if_pos h

theorem blockBeginEffect_keeps_tables {f : Bool} {s t : State} (h : blockBeginEffect f s = .ok t) :
    (∀ x, t.len x = s.len x) ∧ (∀ x, t.count x = s.count x) := by
  obtain ⟨-, c1, c2, c3, rfl⟩ := blockBeginEffect_spec h
  exact ⟨fun x => by cases x <;> rfl, fun x => by cases x <;> rfl⟩

/-- Settles O32: `BLOCK_BEGIN` opens a block over the same lengths, so the symbols and the end have the codes of `s`. -/
theorem blockBitsAreContiguous : Obligations.BlockBitsAreContiguous := by
  intro s f syms hp hk hbegin hsyms
  obtain ⟨t, hok⟩ := exists_blockBeginEffect_ok f hbegin
  obtain ⟨hlen, hcount⟩ := blockBeginEffect_keeps_tables hok
  have hopen : exec (.blockBegin f) s = .next t := exec_of_effect (by simp [hp]) rfl (by simp [allowedIn, hp]) hok
  have hinv := blockBegin_codesInv hok
  obtain ⟨-, c1, c2, c3, ht⟩ := blockBeginEffect_spec hok
  have htp : t.phase = .inBlock := by rw [ht]
  have hbody := execAll_of_bodyBits hinv htp fun p hmem =>
    (State.bodyBits_congr hlen hcount _).trans (State.bodyBits_symbolInstr (hsyms p hmem))
  have hclose := exec_blockEnd_of_open (hinv.withSink (t.sink.pushAll (syms.flatMap s.symbolBits))) htp
  have hrun := (execAll_cons_of_next hopen).trans
    ((execAll_append (js := [.blockEnd]) hbody).trans (execAll_cons_of_next hclose))
  refine ⟨_, hrun, ?_, ?_⟩
  · rw [ht]
  · have hsink : t.sink = s.sink.pushAll (s.headerBits f) := by rw [ht]
    dsimp only
    rw [State.eobBits_congr (State.withSink_len t _) (State.withSink_count t _), State.eobBits_congr hlen hcount, hsink,
      Sink.pushAll_append, Sink.pushAll_append, Sink.bits_pushAll _ hk, ← List.append_assoc, ← List.append_assoc]
    rfl

end Sys2Proof.Machine
end

section
/-! SUPPORT. The bitstream packer unit (R180 to R183). -/

namespace Sys2Proof.Machine

/-! ### The bit commands -/

/-- `OUT` grows by the whole bytes that the bits waiting in `ACC` and the new ones make (R52). -/
theorem Sink.length_out_pushAll (bs : List Bool) (k : Sink) :
    (k.pushAll bs).out.length = k.out.length + (k.nbits.toNat + bs.length) / 8 := by
  rw [Sink.length_out_eq_bitCount_div, Sink.bitCount_pushAll, Sink.bitCount]
  omega

/-- A command that only appends `bs` to the stream, whole. -/
theorem Runs.appends {i : Instr} {s : State} {bs : List Bool} (hrun : Runs i s)
    (he : effectOf i s = .ok { s with sink := s.sink.pushAll bs }) :
    ∃ t, exec i s = .next t ∧ (s.sink.wf → t.sink.wf ∧ t.sink.bits = s.sink.bits ++ bs) ∧
      t.sink.out.length = s.sink.out.length + (s.sink.nbits.toNat + bs.length) / 8 ∧ t = { s with sink := t.sink } :=
  ⟨_, hrun.ok he, fun hk => Sink.pushAll_spec hk bs, Sink.length_out_pushAll bs s.sink, rfl⟩

/-- Settles O36: `PUSH_BIT` appends the list of its one bit, `PUSH_BITS` that of its field, bit 0 first. -/
theorem pushBitAndPushBits : Obligations.PushBitAndPushBits := by
  intro s b v n
  refine ⟨commandRule_of_runs rfl (fun _ _ => Iff.rfl) rfl ne_fault_iff fun _ hrun => hrun.appends (bs := [b]) rfl,
    commandRule_of_runs rfl (fun _ _ => Iff.rfl) rfl ne_fault_iff fun _ hrun => ?_⟩
  have heffect : effectOf (.pushBits v n) s =
      .ok { s with sink := s.sink.pushAll (fieldBits v.toNat n.toNat) } := by
    rw [← Sink.pushBits_eq_pushAll]
    rfl
  have happends := hrun.appends heffect
  rwa [length_fieldBits] at happends

/-! ### Whole bytes -/

/-- Settles O37: `PUSH_BYTE` has its own check, for a byte boundary, and then `AppendByte` writes only `OUT`. -/
theorem pushByteAppendsAtABoundary : Obligations.PushByteAppendsAtABoundary := by
  intro s v
  exact commandRule_of_runs rfl (fun _ _ => Iff.rfl) rfl idle_or_done_iff fun _ hrun =>
    ⟨fun hn => hrun.error (if_pos hn), fun h0 => hrun.ok (if_neg (not_not.mpr h0))⟩

theorem fieldBits_zero (v : Nat) : fieldBits v 0 = [] := rfl

/-- Above a number's own bits its field has only zeros. -/
theorem fieldBits_add_of_lt {v n : Nat} (hv : v < 2 ^ n) (d : Nat) :
    fieldBits v (n + d) = fieldBits v n ++ List.replicate d false := by
  induction d with
  | zero => exact (List.append_nil _).symm
  | succ d ih =>
    have hbit : v.testBit (n + d) = false :=
      Nat.testBit_lt_two_pow (hv.trans_le (Nat.pow_le_pow_right Nat.two_pos (Nat.le_add_right n d)))
    rw [← Nat.add_assoc, fieldBits_succ, ih, hbit, List.replicate_succ', List.append_assoc]

theorem Sink.flushBits_of_boundary {k : Sink} (h0 : k.nbits = 0) : k.flushBits = k := if_neg (not_not.mpr h0)

theorem Sink.flushBits_of_partial {k : Sink} (hn : k.nbits ≠ 0) :
    k.flushBits = { acc := 0, nbits := 0, out := k.out ++ [k.acc] } := if_pos hn

/-- R55 pads the partial byte with zero bits: under the invariant of R32, `ACC` has only zeros from bit `NBITS` on. -/
theorem Sink.bits_flushBits_of_partial {k : Sink} (hk : k.wf) (hn : k.nbits ≠ 0) :
    k.flushBits.bits = k.bits ++ List.replicate (8 - k.nbits.toNat) false := by
  have hpad : fieldBits k.acc.toNat 8 =
      fieldBits k.acc.toNat k.nbits.toNat ++ List.replicate (8 - k.nbits.toNat) false := by
    rw [← fieldBits_add_of_lt hk, Nat.add_sub_cancel' k.nbits.isLt.le]
  simp [Sink.flushBits_of_partial hn, Sink.bits, hpad, fieldBits_zero]

/-- Settles O38: at a boundary `FlushBits` leaves the sink; else it delivers `ACC`, padded. -/
theorem flushPadsWithZeros : Obligations.FlushPadsWithZeros := by
  intro s
  refine commandRule_of_runs rfl (fun _ _ => Iff.rfl) rfl idle_or_done_iff fun _ hrun => ?_
  have hflush : exec .flush s = .next { s with sink := s.sink.flushBits } := hrun.ok rfl
  refine ⟨fun h0 => ?_, fun hn => ⟨_, hflush, ?_, ?_, ?_, fun hk => Sink.bits_flushBits_of_partial hk hn, rfl⟩⟩
  · rw [hflush, Sink.flushBits_of_boundary h0]
  all_goals simp only [Sink.flushBits_of_partial hn]

end Sys2Proof.Machine
end

section
/-! SUPPORT. The control commands and the phase machine (R210 to R214): what runs in every phase, the status word as a
number (R37), and the ways `PHASE` changes. -/

namespace Sys2Proof.Machine

/-! ### Commands that run in every phase -/

/-- The four commands of R250 have no bounds to meet, and every phase allows them (R214). -/
theorem runs_of_runsInFault {i : Instr} (hi : runsInFault i = true) (s : State) : Runs i s := by
  obtain ⟨hwf, hallowed⟩ : i.wellFormed = true ∧ allowedIn i s.phase = true := by
    rcases (runsInFault_iff i).mp hi with rfl | rfl | rfl | rfl <;> exact ⟨rfl, rfl⟩
  exact runs_of_allowed (fun _ => hi) hwf hallowed

/-- In `FAULT` a word whose fields break R72 or R73 is ignored (R250). -/
theorem performWord_of_not_legal_in_fault {w : Word} {s : State} (hw : ¬ legalFields (wordFields w))
    (hp : s.phase = .fault) : performWord w s = .next s := by
  cases hd : decode w with
  | ok i => exact absurd ((decodeAcceptsExactlyLegalFields w).mp ⟨i, hd⟩) hw
  | error r => rw [performWord_of_error s hd, illegalWord, if_pos hp]

/-- A word of an opcode without operands (R73) that has a non-zero field (R75, R248, R250). -/
theorem performWord_of_nonzero_field {op : Byte} (hop : ∀ a' b', legalFields (op.toNat, a', b') ↔ a' = 0 ∧ b' = 0)
    (s : State) (a : BitVec 16) (b : Byte) (hab : ¬ (a.toNat = 0 ∧ b.toNat = 0)) :
    (s.phase ≠ .fault → performWord (op ++ a ++ b) s = .next (s.raised .illegalCommand (op ++ a ++ b))) ∧
    (s.phase = .fault → performWord (op ++ a ++ b) s = .next s) := by
  have hw : ¬ legalFields (wordFields (packWord op a b)) := by
    rw [wordFields_packWord]
    exact fun h => hab ((hop _ _).mp h)
  exact ⟨performWord_of_not_legal hw, performWord_of_not_legal_in_fault hw⟩

/-! ### Reset (R213, R260, R261) -/

theorem resetBlock_atReset (s : State) : (resetBlock s).atReset := rfl

/-- Settles O7: the command and the reset input are both `resetBlock`, and `SOFT_RESET` has no operand. -/
theorem resetsReachEveryRegister : Obligations.ResetsReachEveryRegister := by
  intro s
  refine ⟨⟨_, (runs_of_runsInFault rfl s).ok rfl, resetBlock_atReset s⟩, decodeInvertsEncode .softReset rfl,
    fun rest hhost => ⟨_, step_of_event hhost, resetBlock_atReset _⟩, ?_⟩
  exact performWord_of_nonzero_field (fun _ _ => Iff.rfl) s

/-! ### The status word as a number (R37) -/

theorem toNat_mul_two_pow_lt {n : Nat} (v : BitVec n) (k : Nat) : v.toNat * 2 ^ k < 2 ^ (n + k) := by
  rw [Nat.pow_add]
  exact Nat.mul_lt_mul_of_pos_right v.isLt (Nat.two_pow_pos k)

/-- A field of `n` bits at position `k` of a word. -/
theorem toNat_fieldAt {n : Nat} (v : BitVec n) (k : Nat) (hk : n + k ≤ 32) :
    (v.setWidth 32 <<< k).toNat = v.toNat * 2 ^ k := by
  have hfits : v.toNat * 2 ^ k < 2 ^ 32 :=
    (toNat_mul_two_pow_lt v k).trans_le (Nat.pow_le_pow_right Nat.two_pos hk)
  rw [BitVec.toNat_shiftLeft, BitVec.toNat_setWidth_of_le (by omega), Nat.shiftLeft_eq, Nat.mod_eq_of_lt hfits]

/-- A field whose place in the word is still zero is added to the word's number. -/
theorem toNat_or_fieldAt {n m : Nat} {x : Word} (v : BitVec n) (k : Nat) (hk : n + k ≤ 32) (hx : x.toNat = m)
    (hzero : 2 ^ (n + k) ∣ m) : (x ||| v.setWidth 32 <<< k).toNat = m + v.toNat * 2 ^ k := by
  obtain ⟨q, rfl⟩ := hzero
  have hlt : v.toNat * 2 ^ k < 2 ^ (n + k) := toNat_mul_two_pow_lt v k
  rw [BitVec.toNat_or, hx, toNat_fieldAt v k hk, Nat.two_pow_add_eq_or_of_lt hlt]

theorem CodesValid.toNat_bits (cv : CodesValid) : cv.bits.toNat = cv.cl.toNat * 4 + cv.d.toNat * 2 + cv.ll.toNat := by
  obtain ⟨ll, d, cl⟩ := cv
  cases ll <;> cases d <;> cases cl <;> rfl

/-- The fields of `STATUS` do not overlap, so its number is their sum. -/
theorem State.toNat_status (s : State) :
    s.status.toNat = s.sink.acc.toNat * 2 ^ 24 + s.err.bits.toNat * 2 ^ 16 + s.sink.nbits.toNat * 2 ^ 8 +
      s.cv.bits.toNat * 2 ^ 3 + s.finalFlag.toNat * 2 ^ 2 + s.phase.bits.toNat := by
  have hacc := toNat_fieldAt s.sink.acc 24 (by decide)
  have herr := toNat_or_fieldAt s.err.bits 16 (by decide) hacc (by omega)
  have hnbits := toNat_or_fieldAt s.sink.nbits 8 (by decide) herr (by omega)
  have hcv := toNat_or_fieldAt s.cv.bits 3 (by decide) hnbits (by omega)
  have hfinal := toNat_or_fieldAt (BitVec.ofBool s.finalFlag) 2 (by decide) hcv (by omega)
  have hphase := toNat_or_fieldAt s.phase.bits 0 (by decide) hfinal (by omega)
  rwa [BitVec.shiftLeft_zero, pow_zero, mul_one, BitVec.toNat_ofBool] at hphase

/-- Settles O41: the three run in every phase, have no operand, and `RDATA` gets the status word or `ERRCMD`. -/
theorem controlCommandsRunInEveryPhase : Obligations.ControlCommandsRunInEveryPhase := by
  intro s
  refine ⟨(runs_of_runsInFault rfl s).ok rfl, (runs_of_runsInFault rfl s).ok rfl,
    ⟨_, (runs_of_runsInFault rfl s).ok rfl, rfl, ?_⟩, decodeInvertsEncode .nop rfl, decodeInvertsEncode .rdStatus rfl,
    decodeInvertsEncode .rdErrcmd rfl, ?_⟩
  · rw [← CodesValid.toNat_bits]
    exact s.toNat_status
  · intro op hop
    refine performWord_of_nonzero_field (fun a' b' => ?_) s
    simp only [List.mem_cons, List.not_mem_nil, or_false] at hop
    rcases hop with rfl | rfl | rfl <;> exact Iff.rfl

/-! ### The phase machine (R214) -/

theorem beginError_of_blockBeginEffect_ok {f : Bool} {s t : State} (h : blockBeginEffect f s = .ok t) :
    s.beginError = none := by
  rcases blockBegin_beginError f s with ⟨e, -, herror⟩ | ⟨hnone, -⟩
  · cases h.symm.trans herror
  · exact hnone

/-- Settles O43: an ignored command keeps `PHASE`, an error sets `FAULT`, and an effect opens, closes or resets. -/
theorem onlyTheListedPhaseTransitions : Obligations.OnlyTheListedPhaseTransitions := by
  intro i s t h hchange
  rcases exec_cases h with ⟨-, -, rfl⟩ | ⟨hp, e, he, rfl⟩ | ⟨ha, -, heffect⟩
  · exact absurd rfl hchange
  · exact .inr (.inr (.inr (.inl ⟨hp, rfl, he⟩)))
  · by_cases hi : i = .softReset
    · subst hi
      cases heffect
      exact .inr (.inr (.inr (.inr ⟨rfl, rfl⟩)))
    · rcases effectOf_phase_cases hi ha heffect with ⟨hkept, -⟩ | ⟨hp, hq, f, rfl⟩ | ⟨hp, hq, -, hend⟩
      · exact absurd hkept hchange
      · exact .inl ⟨hp, hq, beginError_of_blockBeginEffect_ok heffect, f, rfl⟩
      · cases hf : s.finalFlag <;> rw [hf] at hq
        · exact .inr (.inl ⟨hp, hq, hend, rfl⟩)
        · exact .inr (.inr (.inl ⟨hp, hq, hend, rfl⟩))

end Sys2Proof.Machine
end

section
/-! SUPPORT. The error response (R241 to R252): what raises which error, what an error writes, and what is left to do in
phase `FAULT`. -/

namespace Sys2Proof.Machine

/-! ### Every event is answered (R241, R250) -/

theorem exec_answers (i : Instr) (s : State) : ∃ t, exec i s = .next t := by
  rw [exec_eq_command]
  exact command_answers i (effectOf i) s

theorem illegalWord_answers (w : Word) (s : State) : ∃ t, illegalWord w s = .next t := by
  unfold illegalWord
  split <;> exact ⟨_, rfl⟩

theorem performWord_answers (w : Word) (s : State) : ∃ t, performWord w s = .next t := by
  cases hd : decode w with
  | ok i => rw [performWord_of_ok s hd]; exact exec_answers i s
  | error r => rw [performWord_of_error s hd]; exact illegalWord_answers w s

theorem step_answers (s : State) : ∃ t, step s = .next t := by
  cases hhost : s.host with
  | nil => exact ⟨s, step_of_no_event hhost⟩
  | cons e rest =>
    rw [step_of_event hhost]
    cases e with
    | command w => exact performWord_answers w _
    | reset => exact ⟨_, rfl⟩

/-- Settles O11: a command always answers, and so does the response to an illegal word, a reset and an idle step. -/
theorem everyCommandAnswersNext : Obligations.EveryCommandAnswersNext := ⟨exec_answers, step_answers⟩

/-! ### What raises an error (R247, R248) -/

/-- Settles O4: decode rejects the word, in `FAULT` and outside it. -/
theorem illegalWordRaisesIllegalCommand : Obligations.IllegalWordRaisesIllegalCommand := fun _ _ hw =>
  ⟨performWord_of_not_legal hw, performWord_of_not_legal_in_fault hw⟩

/-- The table of R214 by columns is the table by rows, outside `FAULT`. -/
theorem refusedIn_eq (p : Phase) (i : Instr) : refusedIn p i = (decide (p ≠ .fault) && !allowedIn i p) := by
  cases p <;> cases i <;> rfl

/-- Settles O13: the check of the phase comes before the effect, and `PUSH_BYTE` has its own check of `NBITS`. -/
theorem phaseViolationRaisesSequenceError : Obligations.PhaseViolationRaisesSequenceError := by
  refine ⟨fun i s hw hrefused => ?_, fun v s hp hn => ?_⟩
  · obtain ⟨hp, ha⟩ : s.phase ≠ .fault ∧ allowedIn i s.phase = false := by simpa [refusedIn_eq] using hrefused
    rw [exec_eq_command]
    exact command_out_of_phase hp hw ha
  · have ha : allowedIn (.pushByte v) s.phase = true := by simpa [allowedIn] using hp
    have hrun : Runs (.pushByte v) s := runs_of_allowed (fun hf => absurd hf (ne_fault_of_idle_or_done hp)) rfl ha
    exact hrun.error (if_pos hn)

/-! ### What an error writes (R241, R242) -/

/-- An effect never leads into `FAULT`. -/
theorem effectOf_phase_ne_fault {i : Instr} {s t : State} (hp : s.phase ≠ .fault) (ha : allowedIn i s.phase = true)
    (h : effectOf i s = .ok t) : t.phase ≠ .fault := by
  by_cases hi : i = .softReset
  · subst hi
    cases h
    simp
  · rcases effectOf_phase_cases hi ha h with ⟨hq, -⟩ | ⟨-, hq, -⟩ | ⟨-, hq, -⟩ <;> rw [hq]
    · exact hp
    · simp
    · cases s.finalFlag <;> simp

/-- Settles O14: only a raise leads into `FAULT`, and the word it records is the command's one encoding. -/
theorem errorsWriteOnlyTheErrorRegisters : Obligations.ErrorsWriteOnlyTheErrorRegisters := by
  intro s t w hp h hfault
  rcases performWord_cases h with ⟨i, hd, hi⟩ | ⟨r, -, hp', -⟩ | ⟨r, -, -, rfl⟩
  · rcases exec_cases hi with ⟨hp', -⟩ | ⟨-, e, he, rfl⟩ | ⟨ha, -, heffect⟩
    · exact absurd hp' hp
    · obtain ⟨rfl, -⟩ := encodeInvertsDecode w i hd
      exact ⟨he, rfl⟩
    · exact absurd hfault (effectOf_phase_ne_fault hp ha heffect)
  · exact absurd hp' hp
  · exact ⟨by simp, rfl⟩

/-! ### In `FAULT` (R250, R251) -/

/-- The words of the four commands of R250 have their effect in every phase. -/
theorem performWord_encode_of_runsInFault {i : Instr} {s t : State} (hi : runsInFault i = true)
    (h : effectOf i s = .ok t) : performWord (encode i) s = .next t := by
  have hrun := runs_of_runsInFault hi s
  have hwf : i.wellFormed = true := by rcases (runsInFault_iff i).mp hi with rfl | rfl | rfl | rfl <;> rfl
  rw [performWord_of_ok s (decodeInvertsEncode i hwf), hrun.ok h]

/-- A presented word in `FAULT` is ignored, unless it is the word of a command that runs there. -/
theorem performWord_in_fault_cases (w : Word) {s : State} (hp : s.phase = .fault) :
    performWord w s = .next s ∨ ∃ i, runsInFault i = true ∧ w = encode i := by
  cases hd : decode w with
  | error r => exact .inl (by rw [performWord_of_error s hd, illegalWord, if_pos hp])
  | ok i =>
    cases hi : runsInFault i
    · exact .inl (by rw [performWord_of_ok s hd, exec_eq_command, command_in_fault hp hi])
    · exact .inr ⟨i, hi, (encodeInvertsDecode w i hd).1.symm⟩

/-- Settles O12: a word has an effect in `FAULT` only as the encoding of one of the four commands, which are the four
words. -/
theorem faultIgnoresEveryOtherWord : Obligations.FaultIgnoresEveryOtherWord := by
  intro s hp
  refine ⟨fun w hnop hstatus herrcmd hreset => ?_, performWord_encode_of_runsInFault (i := .nop) rfl rfl,
    performWord_encode_of_runsInFault (i := .rdStatus) rfl rfl,
    performWord_encode_of_runsInFault (i := .rdErrcmd) rfl rfl,
    _, performWord_encode_of_runsInFault (i := .softReset) rfl rfl, resetBlock_atReset s⟩
  rcases performWord_in_fault_cases w hp with hignored | ⟨i, hi, rfl⟩
  · exact hignored
  · rcases (runsInFault_iff i).mp hi with rfl | rfl | rfl | rfl
    · exact absurd rfl hnop
    · exact absurd rfl hstatus
    · exact absurd rfl herrcmd
    · exact absurd rfl hreset

/-- In `FAULT` every word but `SOFT_RESET`'s writes `RDATA` at most. -/
theorem performWord_in_fault_keeps {w : Word} {s t : State} (hp : s.phase = .fault) (hw : w ≠ 0x30000000)
    (h : performWord w s = .next t) : t = { s with rdata := t.rdata } := by
  rcases performWord_in_fault_cases w hp with hignored | ⟨i, hi, rfl⟩
  · cases h.symm.trans hignored; rfl
  · rcases (runsInFault_iff i).mp hi with rfl | rfl | rfl | rfl
    case inr.inr.inr => exact absurd rfl hw
    all_goals cases h.symm.trans (performWord_encode_of_runsInFault hi rfl); rfl

/-- Settles O16: the reset input and the word of `SOFT_RESET` reset; every other word keeps all but `RDATA`. -/
theorem onlyResetLeavesFault : Obligations.OnlyResetLeavesFault := by
  intro s t hp h
  cases hhost : s.host with
  | nil => cases h.symm.trans (step_of_no_event hhost); exact .inr rfl
  | cons e rest =>
    rw [step_of_event hhost] at h
    cases e with
    | reset => cases h; exact .inl ⟨⟨rest, .inr rfl⟩, resetBlock_atReset _⟩
    | command w =>
      by_cases hw : w = 0x30000000
      · subst hw
        cases h.symm.trans (performWord_encode_of_runsInFault (i := .softReset) rfl rfl)
        exact .inl ⟨⟨rest, .inl rfl⟩, resetBlock_atReset _⟩
      · have hkept : t = { s with host := rest, rdata := t.rdata } :=
          performWord_in_fault_keeps (s := { s with host := rest }) hp hw h
        exact .inr (by rw [hkept])

end Sys2Proof.Machine
end

section
/-! SUPPORT. Reset, waiting, and the lock on the tables while a block is open (R260 to R264). -/

namespace Sys2Proof.Machine

/-! ### Reset (R261) and waiting for the host (R260) -/

/-- Settles O6: every register file is filled with 0, and each other register has its reset value by definition. -/
theorem resetLeavesEveryRegisterZero : Obligations.ResetLeavesEveryRegisterZero := by
  refine ⟨?_, ?_, ?_, rfl, rfl, rfl, rfl, rfl, rfl, rfl, rfl, rfl, rfl, rfl, rfl, rfl⟩
  all_goals exact fun _ _ => ⟨regAt_replicate_zero _, regAt_replicate_zero _⟩

/-- Settles O9: the step looks at the host's list first. -/
theorem stepWithoutHostEventWaits : Obligations.StepWithoutHostEventWaits := fun _ hhost => step_of_no_event hhost

/-- Settles O46: the reset state is its own reset, and a reset state has the invariant. -/
theorem regsInvAtReset : Obligations.RegsInvAtReset := resetBlock_regsInv State.reset

/-- Settles O48: the reset state is its own reset, and a reset state has the invariant. -/
theorem codesInvAtReset : Obligations.CodesInvAtReset := resetBlock_codesInv State.reset

/-! ### The lock (R264) -/

/-- What an open block locks: the tables with their flags, and `FINAL`. -/
def lockedRegs : List Reg := .final :: tableRegs

/-- `IN_BLOCK` allows no command with a locked register in its row, but `SOFT_RESET` (R42, R214). -/
theorem lockedRegs_not_mem_writtenBy {i : Instr} (hi : i ≠ .softReset) (ha : allowedIn i .inBlock = true) {r : Reg}
    (hr : r ∈ lockedRegs) : r ∉ writtenBy i := by
  cases i with
  | softReset => exact absurd rfl hi
  | wrLlen | wrDlen | wrClen | setNlit | setNdist | build | blockBegin => exact absurd ha (by simp [allowedIn])
  | _ => revert r; simp [lockedRegs, tableRegs, writtenBy]

/-- No error register is locked. -/
theorem raiseError_keeps_lockedRegs (s : State) (e : ErrCode) (w : Word) {r : Reg} (hr : r ∈ lockedRegs) :
    s.sameIn (raiseError s e w) r :=
  raiseError_sameIn s e w (by revert r; decide)

theorem exec_inBlock_keeps_lockedRegs {i : Instr} {s t : State} (hp : s.phase = .inBlock) (hi : i ≠ .softReset)
    (h : exec i s = .next t) {r : Reg} (hr : r ∈ lockedRegs) : s.sameIn t r := by
  rcases exec_cases h with ⟨-, -, rfl⟩ | ⟨-, e, -, rfl⟩ | ⟨ha, -, heffect⟩
  · exact t.sameIn_refl r
  · exact raiseError_keeps_lockedRegs s e _ hr
  · rw [hp] at ha
    exact effectOf_sameIn heffect (lockedRegs_not_mem_writtenBy hi ha hr)

/-- A command that `IN_BLOCK` does not allow raises `SequenceError` there (R214, R247). -/
theorem exec_inBlock_of_not_allowed {i : Instr} {s : State} (hp : s.phase = .inBlock) (hw : i.wellFormed = true)
    (ha : allowedIn i .inBlock = false) : exec i s = .next (s.raised .sequenceError (encode i)) := by
  rw [exec_eq_command]
  exact command_out_of_phase (by simp [hp]) hw (by rw [hp]; exact ha)

/-- Settles O44: a command that would write a locked register is not allowed in `IN_BLOCK`, and a raise writes none. -/
theorem tablesAreLockedInABlock : Obligations.TablesAreLockedInABlock := by
  intro i s t hp hi h
  refine ⟨?_, fun hw htable => ?_⟩
  · have hsame : ∀ r ∈ lockedRegs, s.sameIn t r := fun r hr => exec_inBlock_keeps_lockedRegs hp hi h hr
    simp only [lockedRegs, tableRegs, List.forall_mem_cons, State.sameIn] at hsame
    obtain ⟨hfinal, hllLen, hdLen, hclLen, hllCode, hdCode, hclCode, hnlit, hndist, hcv, -⟩ := hsame
    exact ⟨hllLen, hdLen, hclLen, hnlit, hndist, hllCode, hdCode, hclCode, hcv, hfinal⟩
  · have hrefused : allowedIn i .inBlock = false := by
      rcases htable with ⟨j, v, rfl | rfl | rfl⟩ | ⟨n, rfl | rfl⟩ | ⟨x, rfl⟩ <;> rfl
    cases h.symm.trans (exec_inBlock_of_not_allowed hp hw hrefused)
    rfl

end Sys2Proof.Machine
end
